-- ==== Sys2Proof/Word.lean ====
section
/-! DEFINITION. The bit-vector types of the ChipP core: bytes, 16-bit sprite header fields, and the 32-bit
values of registers, addresses, immediates and pixels (spec rules R5, R6, R7). All values are unsigned. -/

namespace Sys2Proof

/-- One byte, of the ROM, of the RAM or of an instruction (rule R7). -/
abbrev Byte := BitVec 8

/-- A 16-bit header field of a sprite record (rule R184). -/
abbrev Half := BitVec 16

/-- A 32-bit unsigned value: a register (XLEN), an address operand or `pc` (ALEN), a pixel (PIXEL_BITS) or
the step counter (STEP_BITS), all of rule R5. -/
abbrev Word := BitVec 32

end Sys2Proof
end

