-- ==== Sys2Proof/Syntax.lean ====
section
/-! DEFINITION. The 26 instructions of the canonical generation: the 25 assigned opcodes and the unrecognised ones
(spec rule R94, `spec/opcode_table.json`). The ten NOP rows of the table are the one entry NOP of rule R94, cut into
aligned blocks only because no single mask covers 0x18 to 0xFE (rule R95); they are the one constructor `nop`. -/

namespace Sys2Proof

/-- An instruction with its operands in encoding order. A register operand is the whole operand byte, 0 to 255: a byte of
32 or more is a legal encoding whose execution raises RegisterFault (rules R22, R92), so it is not decoded away. -/
inductive Instr where
  /-- 0x00 IDLE (rule R124). -/
  | idle
  /-- 0x01 MOV reg, imm (rule R140). -/
  | mov (reg : Byte) (imm : Word)
  /-- 0x02 STORE_I reg, addr (rule R141). -/
  | storeI (reg : Byte) (addr : Word)
  /-- 0x03 LOAD_I reg, addr (rule R142). -/
  | loadI (reg : Byte) (addr : Word)
  /-- 0x04 STORE reg1, reg2: reg1 holds the value, reg2 the address (rule R143). -/
  | store (reg1 reg2 : Byte)
  /-- 0x05 LOAD reg1, reg2: reg1 is the destination, reg2 holds the address (rule R144). -/
  | load (reg1 reg2 : Byte)
  /-- 0x06 ADD reg1, reg2 (rule R150). -/
  | add (reg1 reg2 : Byte)
  /-- 0x07 ADD_I reg, imm (rule R151). -/
  | addI (reg : Byte) (imm : Word)
  /-- 0x08 SUB reg1, reg2 (rule R152). -/
  | sub (reg1 reg2 : Byte)
  /-- 0x09 SUB_I reg, imm (rule R153). -/
  | subI (reg : Byte) (imm : Word)
  /-- 0x0A MUL reg1, reg2 (rule R154). -/
  | mul (reg1 reg2 : Byte)
  /-- 0x0B DIV reg1, reg2 (rule R155). -/
  | div (reg1 reg2 : Byte)
  /-- 0x0C JMP addr (rule R160). -/
  | jmp (addr : Word)
  /-- 0x0D JEQ reg1, reg2, addr (rule R161). -/
  | jeq (reg1 reg2 : Byte) (addr : Word)
  /-- 0x0E JNE reg1, reg2, addr (rule R162). -/
  | jne (reg1 reg2 : Byte) (addr : Word)
  /-- 0x0F STORE_STR srcAddr, dstAddr (rule R171). -/
  | storeStr (srcAddr dstAddr : Word)
  /-- 0x10 PRINT_MEM addr (rule R172). -/
  | printMem (addr : Word)
  /-- 0x11 PRINT_ROM addr (rule R173). -/
  | printRom (addr : Word)
  /-- 0x12 CALL addr (rule R164). -/
  | call (addr : Word)
  /-- 0x13 RETURN (rule R165). -/
  | ret
  /-- 0x14 SWAP_BUFFERS (rule R180). -/
  | swapBuffers
  /-- 0x15 DRAW_PIXEL xReg, yReg, color (rule R181). -/
  | drawPixel (xReg yReg : Byte) (color : Word)
  /-- 0x16 DRAW_SPRITE xReg, yReg, romAddr (rule R188). -/
  | drawSprite (xReg yReg : Byte) (romAddr : Word)
  /-- 0x17 JGT reg1, reg2, addr (rule R163). -/
  | jgt (reg1 reg2 : Byte) (addr : Word)
  /-- 0x18 to 0xFE, an unrecognised opcode; the operand is the opcode byte itself (rules R96, R126). -/
  | nop (opcode : Byte)
  /-- 0xFF HALT (rule R125). -/
  | halt
  deriving DecidableEq, Repr

end Sys2Proof
end

