-- ==== Sys2Proof/WellFormed.lean ====
section
/-! DEFINITION. Which terms of `Instr` are instructions of the hardware. Every operand value is one the encoding admits
(spec rule R97: no reserved bits or fields), so the only check is on the opcode byte that `nop` carries. -/

namespace Sys2Proof

/-- The unrecognised opcodes, 0x18 to 0xFE (rules R94, R96). -/
abbrev UnrecognisedOpcode (op : Byte) : Prop := 0x18 ≤ op.toNat ∧ op.toNat ≤ 0xFE

/-- A term is well formed when it has an encoding: `nop` carries an unrecognised opcode, and every other term is well
formed whatever its operands (rules R92, R93, R97). -/
def Instr.wellFormed : Instr → Bool
  | .nop op => decide (UnrecognisedOpcode op)
  | .idle | .ret | .swapBuffers | .halt => true
  | .mov _ _ | .storeI _ _ | .loadI _ _ | .addI _ _ | .subI _ _ => true
  | .store _ _ | .load _ _ | .add _ _ | .sub _ _ | .mul _ _ | .div _ _ => true
  | .jmp _ | .printMem _ | .printRom _ | .call _ => true
  | .jeq _ _ _ | .jne _ _ _ | .jgt _ _ _ | .drawPixel _ _ _ | .drawSprite _ _ _ => true
  | .storeStr _ _ => true

end Sys2Proof
end

