-- ==== Sys2Proof/Decode.lean ====
section
/-! DEFINITION. The instruction encoding (spec file `30_encoding.md`): big-endian assembly of operand bytes, the decoder
from bytes to an instruction and the bytes that follow it, and the encoder, each written from the tables of
rules R91 and R94. -/

namespace Sys2Proof

/-! ## Big-endian byte order (rules R7, R63, R93) -/

/-- The 16-bit value of two bytes in ascending address order. -/
def be16 (b0 b1 : Byte) : Half := b0 ++ b1

/-- The 32-bit value of four bytes in ascending address order. -/
def be32 (b0 b1 b2 b3 : Byte) : Word := b0 ++ b1 ++ b2 ++ b3

/-- The byte of `v` that stands at offset `k` (0 to 3) of its big-endian storage: `v[31:24]` at offset 0 down
to `v[7:0]` at offset 3 (rule R63). -/
def byteOf (v : Word) (k : Nat) : Byte := v.extractLsb' (8 * (3 - k)) 8

/-- The four bytes of a 32-bit value in ascending address order. -/
def wordBytes (v : Word) : List Byte := [byteOf v 0, byteOf v 1, byteOf v 2, byteOf v 3]

/-! ## Lengths (rules R91, R94, R95) -/

/-- The length in bytes of the longest instruction, STORE_STR (rule R90). -/
abbrev maxInstrLength : Nat := 9

/-- The length of the instruction that an opcode byte selects: the opcode byte alone fixes it (rule R90). -/
def opcodeLength (op : Byte) : Nat :=
  match op.toNat with
  | 0x01 | 0x02 | 0x03 | 0x07 | 0x09 => 6
  | 0x04 | 0x05 | 0x06 | 0x08 | 0x0A | 0x0B => 3
  | 0x0C | 0x10 | 0x11 | 0x12 => 5
  | 0x0D | 0x0E | 0x15 | 0x16 | 0x17 => 7
  | 0x0F => 9
  | _ => 1

/-! ## The decoder -/

/-- What decoding yields. There is no illegal opcode (rule R95). -/
inductive Decoded where
  /-- An instruction and the bytes after it. -/
  | instr (i : Instr) (rest : List Byte)
  /-- No byte at all: there is no instruction (rule R99, second case). -/
  | noOpcode
  /-- The opcode byte is there and an operand byte it needs is not (rule R99, first case). -/
  | truncated
  deriving DecidableEq, Repr

/-- Format F0: no operands. -/
def operandsF0 (i : Instr) (bs : List Byte) : Decoded := .instr i bs

/-- Format F1: a register byte and a 4-byte value. -/
def operandsF1 (c : Byte → Word → Instr) : List Byte → Decoded
  | r :: v0 :: v1 :: v2 :: v3 :: bs => .instr (c r (be32 v0 v1 v2 v3)) bs
  | _ => .truncated

/-- Format F2: two register bytes. -/
def operandsF2 (c : Byte → Byte → Instr) : List Byte → Decoded
  | r1 :: r2 :: bs => .instr (c r1 r2) bs
  | _ => .truncated

/-- Format F3: a 4-byte value. -/
def operandsF3 (c : Word → Instr) : List Byte → Decoded
  | v0 :: v1 :: v2 :: v3 :: bs => .instr (c (be32 v0 v1 v2 v3)) bs
  | _ => .truncated

/-- Format F4: two register bytes and a 4-byte value. -/
def operandsF4 (c : Byte → Byte → Word → Instr) : List Byte → Decoded
  | r1 :: r2 :: v0 :: v1 :: v2 :: v3 :: bs => .instr (c r1 r2 (be32 v0 v1 v2 v3)) bs
  | _ => .truncated

/-- Format F5: two 4-byte values, the source address first. -/
def operandsF5 (c : Word → Word → Instr) : List Byte → Decoded
  | s0 :: s1 :: s2 :: s3 :: d0 :: d1 :: d2 :: d3 :: bs => .instr (c (be32 s0 s1 s2 s3) (be32 d0 d1 d2 d3)) bs
  | _ => .truncated

/-- The opcode map of rule R94: which instruction an opcode byte selects and in which format its operands follow. -/
def decodeOpcode (op : Byte) (bs : List Byte) : Decoded :=
  match op.toNat with
  | 0x00 => operandsF0 .idle bs
  | 0x01 => operandsF1 .mov bs
  | 0x02 => operandsF1 .storeI bs
  | 0x03 => operandsF1 .loadI bs
  | 0x04 => operandsF2 .store bs
  | 0x05 => operandsF2 .load bs
  | 0x06 => operandsF2 .add bs
  | 0x07 => operandsF1 .addI bs
  | 0x08 => operandsF2 .sub bs
  | 0x09 => operandsF1 .subI bs
  | 0x0A => operandsF2 .mul bs
  | 0x0B => operandsF2 .div bs
  | 0x0C => operandsF3 .jmp bs
  | 0x0D => operandsF4 .jeq bs
  | 0x0E => operandsF4 .jne bs
  | 0x0F => operandsF5 .storeStr bs
  | 0x10 => operandsF3 .printMem bs
  | 0x11 => operandsF3 .printRom bs
  | 0x12 => operandsF3 .call bs
  | 0x13 => operandsF0 .ret bs
  | 0x14 => operandsF0 .swapBuffers bs
  | 0x15 => operandsF4 .drawPixel bs
  | 0x16 => operandsF4 .drawSprite bs
  | 0x17 => operandsF4 .jgt bs
  | 0xFF => operandsF0 .halt bs
  | _ => operandsF0 (.nop op) bs

/-- Decode the instruction at the head of a byte sequence (rules R90, R95). Total: any bytes give an instruction with the
bytes after it, or one of the two named reasons why there is none. -/
def decode : List Byte → Decoded
  | [] => .noOpcode
  | op :: bs => decodeOpcode op bs

/-! ## The encoder -/

/-- The opcode byte of an instruction (rule R94). -/
def Instr.opcode : Instr → Byte
  | .idle => 0x00
  | .mov _ _ => 0x01
  | .storeI _ _ => 0x02
  | .loadI _ _ => 0x03
  | .store _ _ => 0x04
  | .load _ _ => 0x05
  | .add _ _ => 0x06
  | .addI _ _ => 0x07
  | .sub _ _ => 0x08
  | .subI _ _ => 0x09
  | .mul _ _ => 0x0A
  | .div _ _ => 0x0B
  | .jmp _ => 0x0C
  | .jeq _ _ _ => 0x0D
  | .jne _ _ _ => 0x0E
  | .storeStr _ _ => 0x0F
  | .printMem _ => 0x10
  | .printRom _ => 0x11
  | .call _ => 0x12
  | .ret => 0x13
  | .swapBuffers => 0x14
  | .drawPixel _ _ _ => 0x15
  | .drawSprite _ _ _ => 0x16
  | .jgt _ _ _ => 0x17
  | .nop op => op
  | .halt => 0xFF

/-- The operand bytes of an instruction, in address order (rule R91). -/
def Instr.operandBytes : Instr → List Byte
  | .idle | .ret | .swapBuffers | .halt | .nop _ => []
  | .mov r v | .storeI r v | .loadI r v | .addI r v | .subI r v => r :: wordBytes v
  | .store r1 r2 | .load r1 r2 | .add r1 r2 | .sub r1 r2 | .mul r1 r2 | .div r1 r2 => [r1, r2]
  | .jmp v | .printMem v | .printRom v | .call v => wordBytes v
  | .jeq r1 r2 v | .jne r1 r2 v | .jgt r1 r2 v | .drawPixel r1 r2 v | .drawSprite r1 r2 v => r1 :: r2 :: wordBytes v
  | .storeStr src dst => wordBytes src ++ wordBytes dst

/-- The bytes of a well-formed instruction in ascending ROM address: the opcode byte, then the operands (rule R90). -/
def encode (i : Instr) : List Byte := i.opcode :: i.operandBytes

/-- The length of an instruction in bytes (rule R91). -/
def Instr.length (i : Instr) : Nat := opcodeLength i.opcode

/-! ## An instruction as one number: the model's own bit numbering (log entry 12) -/

/-- DESIGN CHOICE (log entry 12, safe): the bytes, in ascending address, of an instruction given as one number whose bit 0 is the
least significant bit of the FIRST byte: byte k is bits 8k+7..8k, and every bit from `nbits` on is 0. This is the numbering of
the model's interface and not the spec's: rule R91 writes the same bytes as one bit string with B0 at its top, and
`spec/opcode_table.json` numbers the bits of B0 alone. No instruction depends on it; fetch and `decode` take bytes. -/
def tableBytes (nbits w : Nat) : List Byte :=
  (List.range maxInstrLength).map fun k => BitVec.ofNat 8 (w % 2 ^ nbits / 256 ^ k)

/-- The instruction the decoder reads from an instruction whose bits are `w` in the numbering of `tableBytes` (log entry 12). -/
def decodeTableWord (nbits w : Nat) : Option Instr :=
  match decode (tableBytes nbits w) with
  | .instr i _ => some i
  | .noOpcode | .truncated => none

end Sys2Proof
end

