-- ==== Sys2Proof/Config.lean ====
section
/-! DEFINITION. The parameters of the core (spec rule R5): the fixed sizes as named constants, and the OPEN
ones as a record that every run carries along unchanged (log entry 1). The hardware leaves no other value open, so
there is no free value. -/

namespace Sys2Proof

/-- NREGS: the number of general registers (rules R5, R21). -/
abbrev numRegs : Nat := 32

/-- RAM_SIZE: the RAM holds bytes 0 to 65535 (rules R5, R61). -/
abbrev ramSize : Nat := 65536

/-- The largest ROM_SIZE, 2^32 bytes (rules R5, R60). -/
abbrev maxRomSize : Nat := 4294967296

/-- The OPEN parameters fixed when the core is built (rules R5, R233). ROM_SIZE, the fourth one, is the length of the
loaded byte sequence. -/
structure Config where
  /-- STACK_CAP, the capacity of the call stack in entries (rule R26, decision D10). -/
  stackCap : Nat
  /-- FB_WIDTH, the width of a surface in pixels (rule R30, decision D11). -/
  fbWidth : Nat
  /-- FB_HEIGHT, the height of a surface in pixels (rule R30, decision D11). -/
  fbHeight : Nat
  deriving DecidableEq, Repr

/-- The legal parameter values: STACK_CAP is at least 1, FB_WIDTH and FB_HEIGHT are at least 1 and below 2^32
(rule R5). -/
abbrev Config.Legal (c : Config) : Prop :=
  1 ≤ c.stackCap ∧ (1 ≤ c.fbWidth ∧ c.fbWidth < 4294967296) ∧ (1 ≤ c.fbHeight ∧ c.fbHeight < 4294967296)

/-- DESIGN CHOICE (log entry 2, unsafe): the parameters of the ONE state named `State.reset`. They are the example
values of the spec (`95_test_vectors.md`), not values of the hardware, so no statement rests on them. -/
def Config.chosen : Config := { stackCap := 16, fbWidth := 64, fbHeight := 32 }

end Sys2Proof
end

