-- ==== Sys2Proof/Machine/State.lean ====
section
/-! DEFINITION. The state of the core as plain data (spec file `10_state.md`, rules R20 to R39), the reasons a model
step or a host transaction can stop, and the state after reset. -/

namespace Sys2Proof.Machine

/-- The five faults of the core (rule R200). A fault is a state of the core (`status`, `fault_cause`), reached by a next
state of the model: rule R210 describes its entry. -/
inductive CoreFault where
  /-- Code 1: a ROM byte address at or beyond ROM_SIZE, other than the opcode fetch (rule R201). -/
  | romFault
  /-- Code 2: a RAM byte address at or beyond 65536 (rule R202). -/
  | memoryFault
  /-- Code 3: a register-index byte of 32 to 255 (rule R203). -/
  | registerFault
  /-- Code 4: a push at `sp = STACK_CAP` or a pop at `sp = 0` (rule R204). -/
  | stackFault
  /-- Code 5: a zero divisor (rule R205). -/
  | arithmeticFault
  deriving DecidableEq, Repr

/-- The value of `status` (rule R35). -/
inductive Status where
  /-- RUN: after reset, and until HALT or a fault. -/
  | run
  /-- HALTED: a HALT was executed. -/
  | halted
  /-- FAULTED: a fault was raised. -/
  | faulted
  deriving DecidableEq, Repr

/-- One event of the console stream (rule R36). -/
inductive ConsoleEvent where
  /-- `Byte(b)`: a raw byte sent to the standard output stream. -/
  | byte (b : Byte)
  /-- `Flush`. -/
  | flush
  deriving DecidableEq, Repr

/-- A decoded sprite image, the value of a sprite-cache entry (rules R32, R185). -/
structure Sprite where
  /-- The width in pixels. -/
  w : Half
  /-- The height in pixels. -/
  h : Half
  /-- The pixels in row-major order. -/
  px : List Word
  deriving DecidableEq, Repr

/-- A finite map from natural numbers, held as a list of key and value pairs. Its canonical form has strictly rising keys
(`sortedKeys` in Machine/Store.lean). -/
abbrev Store (α : Type) := List (Nat × α)

/-- The RAM as a list of (address, byte) pairs in canonical form (`Memory.wf`): addresses strictly rising, no
entry equal to the 0x00 that an unlisted address reads as (rules R39, R61). -/
abbrev Memory := List Host.Cell

/-- A surface as a list of (index, pixel) pairs in canonical form; pixel (px, py) has the index py * FB_WIDTH + px, and an
unlisted pixel is 0x00000000 (rules R30, R39; log entry 3). -/
abbrev Surface := Store Word

/-- The state of the core (rule R20), with the two things a run holds fixed: the parameters and the ROM. -/
structure State where
  /-- STACK_CAP, FB_WIDTH and FB_HEIGHT: parameters, written by nothing (rules R5, R233). -/
  cfg : Config
  /-- The ROM, a parameter of a run of length ROM_SIZE: written by LoadRom only (rules R60, R240). -/
  rom : List Byte
  /-- The general registers x[0] to x[31] (rule R21). -/
  regs : Vector Word 32
  /-- The program counter, a byte offset into the ROM (rule R24). -/
  pc : Word
  /-- The slots of the call stack by index; an unlisted slot holds 0 (rules R26, R39). -/
  stack : Store Word
  /-- The number of live call-stack entries (rule R26). -/
  sp : Nat
  /-- The RAM (rule R61). -/
  ram : Memory
  /-- The two surfaces (rule R30). -/
  fb : Vector Surface 2
  /-- The index of the presented surface; drawing goes to `1 - current` (rule R31). -/
  current : Fin 2
  /-- The sprite cache, by ROM address (rule R32). -/
  scache : Store Sprite
  /-- What has been sent to the standard output stream since reset, in order (rule R36). -/
  console : List ConsoleEvent
  /-- The step counter (rule R34). -/
  steps : Word
  /-- RUN, HALTED or FAULTED (rule R35). -/
  status : Status
  /-- The fault that happened, none after reset (rules R35, R200). -/
  faultCause : Option CoreFault
  deriving DecidableEq, Repr

/-- Why a step of the model stops with a fault: never. Every fault of the core has an entry that rule R210
describes, so raising it gives a next state, and a core that has stopped is a fixed point of the step (rules R120, R208,
R210). No instruction and no transaction raises a model fault, so the type has no constructor. -/
inductive Fault where
  deriving DecidableEq, Repr

/-- Why the model gives no meaning. -/
inductive Refusal where
  /-- Raised only by an arm of `exec` whose instruction has no meaning yet (none is left). Safe. -/
  | notModelled (mnemonic : String)
  /-- Raised by the LoadRom transaction when it is not the first one after Reset or a Step came before it: outside the
  host's contract (rule R240, U20). Safe: no claim is made of such a host. -/
  | loadRomOutOfOrder
  /-- Raised by the LoadRom transaction for a byte sequence longer than 2^32, which the loader rejects (rules R209, R240,
  U21). Safe: no such ROM reaches the core. -/
  | romTooLong
  /-- Raised by the ReadPixel transaction for a pixel outside the surface, which rule R243 does not offer. Safe. -/
  | pixelOutsideSurface
  deriving DecidableEq, Repr

/-- The outcome of one step or of one instruction. -/
abbrev StepOutcome := Host.Outcome State Fault Refusal

/-- The state after reset of a core built with the parameters `c` (rules R39, R230): everything zero or empty, `status`
RUN, and an empty ROM until LoadRom (rule R239). -/
def State.resetWith (c : Config) : State where
  cfg := c
  rom := []
  regs := Vector.replicate 32 0
  pc := 0
  stack := []
  sp := 0
  ram := []
  fb := Vector.replicate 2 []
  current := 0
  scache := []
  console := []
  steps := 0
  status := .run
  faultCause := none

/-- The machine right after reset. The parameter values are a DESIGN CHOICE (log entry 2); every other field is the
value rule R39 states. -/
def State.reset : State := State.resetWith Config.chosen

end Sys2Proof.Machine
end

