-- ==== Sys2Proof/Machine/Store.lean ====
section
/-! DEFINITION. Finite maps kept as sorted lists: the one representation behind the RAM, the surfaces, the call-stack
slots and the sprite cache (log entry 3). Reading is total; writing keeps the canonical form. -/

namespace Sys2Proof.Machine

variable {α : Type}

/-- The entry of a map under a key, if it has one. -/
def lookup (k : Nat) : Store α → Option α
  | [] => none
  | (j, v) :: m => if j = k then some v else lookup k m

/-- The map with the key `k` bound to `v`, in the place that keeps the keys rising. -/
def insertAt (k : Nat) (v : α) : Store α → Store α
  | [] => [(k, v)]
  | (j, w) :: m =>
    if k < j then (k, v) :: (j, w) :: m
    else if k = j then (k, v) :: m
    else (j, w) :: insertAt k v m

/-- The map without the key `k`. -/
def eraseAt (k : Nat) : Store α → Store α
  | [] => []
  | (j, w) :: m => if j = k then eraseAt k m else (j, w) :: eraseAt k m

/-- The keys rise strictly: no key stands twice and the order is fixed. -/
def sortedKeys : Store α → Bool
  | [] => true
  | (j, _) :: m => m.all (fun e => decide (j < e.1)) && sortedKeys m

/-- Every entry satisfies the Boolean test `p` on its key and value. -/
def allEntries (p : Nat → α → Bool) (m : Store α) : Bool := m.all fun e => p e.1 e.2

/-! ## Cells: a map of bit vectors whose unlisted keys read as zero (rule R39) -/

variable {n : Nat}

/-- The cell at `k`; an unlisted cell is zero, the reset content. -/
def readCell (m : Store (BitVec n)) (k : Nat) : BitVec n := (lookup k m).getD 0

/-- The cells with `v` at `k`. Writing zero removes the entry, so equal contents are equal lists. -/
def writeCell (m : Store (BitVec n)) (k : Nat) (v : BitVec n) : Store (BitVec n) :=
  if v = 0 then eraseAt k m else insertAt k v m

/-- The canonical form of cells 0 to `size - 1`: rising keys below `size`, no zero entry. -/
def cellsWf (size : Nat) (m : Store (BitVec n)) : Bool :=
  sortedKeys m && allEntries (fun k v => decide (k < size) && decide (v ≠ 0)) m

/-- The canonical form of the RAM: addresses strictly rising and below 65536, no listed 0x00 (rule R61). -/
def Memory.wf (m : Memory) : Bool := cellsWf ramSize m

/-- The canonical form of a surface with `w * h` pixels (rule R30). -/
def Surface.wf (w h : Nat) (m : Surface) : Bool := cellsWf (w * h) m

end Sys2Proof.Machine
end

