-- ==== Sys2Proof/Machine/Ops.lean ====
section
/-! DEFINITION. The named operations over the state that the instruction rules are written with (spec rules R8 to R10):
registers, `pc`, call stack, ROM, RAM, surfaces, console, the commit of an instruction, and taking a fault. An operation
that can raise a fault answers in `Except CoreFault`. -/

namespace Sys2Proof.Machine

/-! ## Registers and program counter (rules R21, R24) -/

/-- `x[i]`. -/
def State.reg (s : State) (i : Fin 32) : Word := s.regs[i.val]

/-- `x[i] <- v`. -/
def State.setReg (s : State) (i : Fin 32) (v : Word) : State := { s with regs := s.regs.set i.val v }

/-- `pc <- npc` for an instruction of `len` bytes that falls through: the increment is modulo 2^32 (rule R25). -/
def State.fallThrough (s : State) (len : Nat) : State := { s with pc := s.pc + BitVec.ofNat 32 len }

/-- `pc <- target` (rule R166: no check of the target). -/
def State.jumpTo (s : State) (target : Word) : State := { s with pc := target }

/-! ## Call stack (rules R26 to R28) -/

/-- `stack[k]`; a popped slot keeps its value. -/
def State.stackAt (s : State) (k : Nat) : Word := readCell s.stack k

/-- `Push(v)` (rule R27). -/
def State.push (s : State) (v : Word) : Except CoreFault State :=
  if s.sp = s.cfg.stackCap then .error .stackFault
  else .ok { s with stack := writeCell s.stack s.sp v, sp := s.sp + 1 }

/-- `Pop()`: the popped value and the state after it (rule R28). -/
def State.pop (s : State) : Except CoreFault (Word × State) :=
  if s.sp = 0 then .error .stackFault
  else .ok (s.stackAt (s.sp - 1), { s with sp := s.sp - 1 })

/-! ## ROM (rules R60, R64, R65) -/

/-- ROM_SIZE. -/
def State.romSize (s : State) : Nat := s.rom.length

/-- `RomByte(a)` for a natural number `a`, never wrapped (rule R64). -/
def romByte (rom : List Byte) (a : Nat) : Except CoreFault Byte :=
  match rom[a]? with
  | some b => .ok b
  | none => .error .romFault

/-- `RomRead(a, 2)` (rule R65). -/
def romRead16 (rom : List Byte) (a : Nat) : Except CoreFault Half := do
  let b0 ← romByte rom a
  let b1 ← romByte rom (a + 1)
  return be16 b0 b1

/-- `RomRead(a, 4)` (rule R65). -/
def romRead32 (rom : List Byte) (a : Nat) : Except CoreFault Word := do
  let b0 ← romByte rom a
  let b1 ← romByte rom (a + 1)
  let b2 ← romByte rom (a + 2)
  let b3 ← romByte rom (a + 3)
  return be32 b0 b1 b2 b3

/-! ## RAM (rules R61, R66 to R68) -/

/-- The byte of the RAM at an address below 65536; what stands above is not there, and every access checks it. -/
def State.ramAt (s : State) (a : Nat) : Byte := readCell s.ram a

/-- One byte of the RAM replaced, at an address that the caller has checked. -/
def State.setRam (s : State) (a : Nat) (b : Byte) : State := { s with ram := writeCell s.ram a b }

/-- The bytes `bs` written at `a`, `a + 1`, ..., in ascending order, at addresses that the caller has checked. -/
def State.setRamBytes (s : State) (a : Nat) : List Byte → State
  | [] => s
  | b :: bs => (s.setRam a b).setRamBytes (a + 1) bs

/-- `MemRead(addr, 1)` for a natural number `addr`, never wrapped (rule R67). -/
def State.memRead8 (s : State) (a : Nat) : Except CoreFault Byte :=
  if a ≥ ramSize then .error .memoryFault else .ok (s.ramAt a)

/-- `MemRead(addr, 4)`: all four bytes are in bounds, or the access faults as a whole (rules R66, R67). -/
def State.memRead32 (s : State) (addr : Word) : Except CoreFault Word :=
  if addr.toNat + 3 ≥ ramSize then .error .memoryFault
  else .ok (be32 (s.ramAt addr.toNat) (s.ramAt (addr.toNat + 1)) (s.ramAt (addr.toNat + 2)) (s.ramAt (addr.toNat + 3)))

/-- `MemWrite(addr, 4, v)`: all four bytes are written, or the access faults as a whole (rules R66, R68). -/
def State.memWrite32 (s : State) (addr v : Word) : Except CoreFault State :=
  if addr.toNat + 3 ≥ ramSize then .error .memoryFault
  else .ok (s.setRamBytes addr.toNat (wordBytes v))

/-! ## Surfaces (rules R30, R31, R183) -/

/-- The index of the back surface, `1 - current` (rule R31). -/
def State.back (s : State) : Fin 2 := 1 - s.current

/-- The key of pixel (px, py) in a surface: row-major order (log entry 3). -/
def State.pixelIndex (s : State) (px py : Nat) : Nat := py * s.cfg.fbWidth + px

/-- `fb[k][py][px]`, for px < FB_WIDTH and py < FB_HEIGHT. -/
def State.pixel (s : State) (k : Fin 2) (px py : Nat) : Word := readCell s.fb[k.val] (s.pixelIndex px py)

/-- `PlotBack(px, py, c)`, the only way a pixel changes: an overwrite of all 32 bits (rule R183). -/
def State.plotBack (s : State) (px py : Nat) (c : Word) : State :=
  { s with fb := s.fb.set s.back.val (writeCell s.fb[s.back.val] (s.pixelIndex px py) c) }

/-! ## Sprite cache (rule R32) -/

/-- The cache entry of a ROM address. -/
def State.cached (s : State) (a : Word) : Option Sprite := lookup a.toNat s.scache

/-- The cache with a new entry. -/
def State.cacheSprite (s : State) (a : Word) (img : Sprite) : State := { s with scache := insertAt a.toNat img s.scache }

/-! ## Console stream (rule R36) -/

/-- `Emit` of every byte of `bs` in order, then `Flush` (rules R36, R172). -/
def State.print (s : State) (bs : List Byte) : State :=
  { s with console := s.console ++ (bs.map .byte ++ [.flush]) }

/-! ## Commit and fault entry (rules R123, R210, R211) -/

/-- The step counter after a completed instruction, modulo 2^32 (rule R34). -/
def State.countStep (s : State) : State := { s with steps := s.steps + 1 }

/-- TAKING A FAULT, the one exceptional event of the core (rules R210, R211): `status` becomes FAULTED and `fault_cause`
the fault; nothing else changes, `pc` included. There is no return from it: only Reset leaves FAULTED (rule R213). -/
def State.raise (s : State) (f : CoreFault) : State := { s with status := .faulted, faultCause := some f }

/-- How an instruction ends (rules R10, R123, R211): its writes take effect and the step counter counts it, or it has
raised a fault and has written nothing. -/
def State.complete (s : State) (r : Except CoreFault State) : StepOutcome :=
  match r with
  | .ok t => .next t.countStep
  | .error f => .next (s.raise f)

end Sys2Proof.Machine
end

