-- ==== Sys2Proof/Machine/Operands.lean ====
section
/-! DEFINITION. The operand forms of the instruction set: the register-index check, the two addressing modes of the
load-store datapath and the coordinate reduction of the drawing instructions. Immediates, targets and ROM addresses are
used as they stand (spec rule R93). -/

namespace Sys2Proof.Machine

/-- `Reg(i)`: a register byte of 32 or more raises RegisterFault, with no wrap-around (rules R22, R92, decision D4). -/
def regIndex (r : Byte) : Except CoreFault (Fin 32) :=
  if h : r.toNat < 32 then .ok ⟨r.toNat, h⟩ else .error .registerFault

/-- The effective address of STORE_I and LOAD_I: the operand itself (rule R145). -/
def absoluteAddress (addr : Word) : Word := addr

/-- The effective address of STORE and LOAD: the full 32-bit value of the address register (rule R145). -/
def State.indirectAddress (s : State) (i : Fin 32) : Word := s.reg i

/-- The column a coordinate register selects: the whole unsigned value modulo FB_WIDTH (rules R181, R182). -/
def State.column (s : State) (i : Fin 32) : Nat := (s.reg i).toNat % s.cfg.fbWidth

/-- The row a coordinate register selects: the whole unsigned value modulo FB_HEIGHT (rules R181, R182). -/
def State.row (s : State) (i : Fin 32) : Nat := (s.reg i).toNat % s.cfg.fbHeight

end Sys2Proof.Machine
end

