-- ==== Sys2Proof/Machine/Arithmetic.lean ====
section
/-! DEFINITION. ADD, ADD_I, SUB, SUB_I, MUL and DIV (spec file `42_arithmetic.md`): 32 bits, unsigned, wrapping, no flag
(rule R156). -/

namespace Sys2Proof.Machine

/-- A register-to-register operation: both registers are read, then the first is written. -/
def State.aluReg (s : State) (op : Word → Word → Except CoreFault Word) (reg1 reg2 : Byte) : StepOutcome :=
  s.complete do
    let d ← regIndex reg1
    let a ← regIndex reg2
    let v ← op (s.reg d) (s.reg a)
    return (s.setReg d v).fallThrough 3

/-- A register-and-immediate operation. -/
def State.aluImm (s : State) (op : Word → Word → Word) (reg : Byte) (imm : Word) : StepOutcome :=
  s.complete do
    let d ← regIndex reg
    return (s.setReg d (op (s.reg d) imm)).fallThrough 6

/-- The unsigned quotient rounded toward zero; a zero divisor raises ArithmeticFault (rule R155). -/
def quotient (a b : Word) : Except CoreFault Word :=
  if b = 0 then .error .arithmeticFault else .ok (BitVec.ofNat 32 (a.toNat / b.toNat))

/-- ADD: register1 ← register1 + register2, wrapping (rule R150). -/
def execAdd (reg1 reg2 : Byte) (s : State) : StepOutcome := s.aluReg (fun a b => .ok (a + b)) reg1 reg2

/-- ADD_I: register ← register + immediate, wrapping (rule R151). -/
def execAddI (reg : Byte) (imm : Word) (s : State) : StepOutcome := s.aluImm (fun a b => a + b) reg imm

/-- SUB: register1 ← register1 − register2, wrapping (rule R152). -/
def execSub (reg1 reg2 : Byte) (s : State) : StepOutcome := s.aluReg (fun a b => .ok (a - b)) reg1 reg2

/-- SUB_I: register ← register − immediate, wrapping (rule R153). -/
def execSubI (reg : Byte) (imm : Word) (s : State) : StepOutcome := s.aluImm (fun a b => a - b) reg imm

/-- MUL: register1 ← register1 × register2, the low 32 bits of the product (rule R154). -/
def execMul (reg1 reg2 : Byte) (s : State) : StepOutcome := s.aluReg (fun a b => .ok (a * b)) reg1 reg2

/-- DIV: register1 ← register1 ÷ register2 (rule R155). -/
def execDiv (reg1 reg2 : Byte) (s : State) : StepOutcome := s.aluReg quotient reg1 reg2

end Sys2Proof.Machine
end

