-- ==== Sys2Proof/Machine/Flags.lean ====
section
/-! DEFINITION. The core has no flags, condition codes or predicates (spec rule R29): no instruction computes or reads
one. What a program tests in their place are the three register comparisons of the conditional jumps. -/

namespace Sys2Proof.Machine

/-- The test of JEQ: all 32 bits are equal (rule R161). -/
def condEq (a b : Word) : Bool := a == b

/-- The test of JNE (rule R162). -/
def condNe (a b : Word) : Bool := a != b

/-- The test of JGT: the first value is greater, both read unsigned (rule R163, decision D27). -/
def condGt (a b : Word) : Bool := decide (a.toNat > b.toNat)

end Sys2Proof.Machine
end

