-- ==== Sys2Proof/Machine/ControlFlow.lean ====
section
/-! DEFINITION. JMP, JEQ, JNE, JGT, CALL and RETURN (spec file `43_control_flow.md`). Targets are absolute and are not
checked (rule R166). -/

namespace Sys2Proof.Machine

/-- A conditional jump: both register bytes are checked whether or not the jump is taken; not taken, it falls
through past its 7 bytes (rules R22, R161 to R163). -/
def State.jumpIf (s : State) (cond : Word → Word → Bool) (reg1 reg2 : Byte) (addr : Word) : StepOutcome :=
  s.complete do
    let a ← regIndex reg1
    let b ← regIndex reg2
    return if cond (s.reg a) (s.reg b) then s.jumpTo addr else s.fallThrough 7

/-- JMP: counter ← addr (rule R160). -/
def execJmp (addr : Word) (s : State) : StepOutcome := s.complete (.ok (s.jumpTo addr))

/-- JEQ: counter ← addr if register1 == register2 (rule R161). -/
def execJeq (reg1 reg2 : Byte) (addr : Word) (s : State) : StepOutcome := s.jumpIf condEq reg1 reg2 addr

/-- JNE: counter ← addr if register1 != register2 (rule R162). -/
def execJne (reg1 reg2 : Byte) (addr : Word) (s : State) : StepOutcome := s.jumpIf condNe reg1 reg2 addr

/-- JGT: counter ← addr if register1 > register2, unsigned (rule R163). -/
def execJgt (reg1 reg2 : Byte) (addr : Word) (s : State) : StepOutcome := s.jumpIf condGt reg1 reg2 addr

/-- CALL: push the address of the instruction after the CALL, then jump (rule R164). -/
def execCall (addr : Word) (s : State) : StepOutcome :=
  s.complete do
    let t ← s.push (s.fallThrough 5).pc
    return t.jumpTo addr

/-- RETURN: pop the call stack into the counter (rule R165). -/
def execRet (s : State) : StepOutcome :=
  s.complete do
    let (target, t) ← s.pop
    return t.jumpTo target

end Sys2Proof.Machine
end

