-- ==== Sys2Proof/Machine/DataMovement.lean ====
section
/-! DEFINITION. MOV, STORE_I, LOAD_I, STORE and LOAD (spec file `41_data_movement.md`). -/

namespace Sys2Proof.Machine

/-- MOV: register ← immediate (rule R140). -/
def execMov (reg : Byte) (imm : Word) (s : State) : StepOutcome :=
  s.complete do
    let d ← regIndex reg
    return (s.setReg d imm).fallThrough 6

/-- STORE_I: memory[addr..addr+3] ← register (rule R141). -/
def execStoreI (reg : Byte) (addr : Word) (s : State) : StepOutcome :=
  s.complete do
    let v ← regIndex reg
    let t ← s.memWrite32 (absoluteAddress addr) (s.reg v)
    return t.fallThrough 6

/-- LOAD_I: register ← memory[addr..addr+3] (rule R142). -/
def execLoadI (reg : Byte) (addr : Word) (s : State) : StepOutcome :=
  s.complete do
    let d ← regIndex reg
    let v ← s.memRead32 (absoluteAddress addr)
    return (s.setReg d v).fallThrough 6

/-- STORE: memory[register2..+3] ← register1 (rule R143). -/
def execStore (reg1 reg2 : Byte) (s : State) : StepOutcome :=
  s.complete do
    let v ← regIndex reg1
    let a ← regIndex reg2
    let t ← s.memWrite32 (s.indirectAddress a) (s.reg v)
    return t.fallThrough 3

/-- LOAD: register1 ← memory[register2..+3] (rule R144). -/
def execLoad (reg1 reg2 : Byte) (s : State) : StepOutcome :=
  s.complete do
    let d ← regIndex reg1
    let a ← regIndex reg2
    let v ← s.memRead32 (s.indirectAddress a)
    return (s.setReg d v).fallThrough 3

end Sys2Proof.Machine
end

