-- ==== Sys2Proof/Machine/Drawing.lean ====
section
/-! DEFINITION. SWAP_BUFFERS, DRAW_PIXEL and DRAW_SPRITE, with the sprite decoder, the cache access and the rasteriser
behind them (spec file `45_drawing.md`). -/

namespace Sys2Proof.Machine

/-- The raster of a sprite record: `count` pixels of four bytes R, G, B, A from the ROM address `a` on, in row-major order
(rules R184, R185, R190). -/
def readRaster (rom : List Byte) : (count a : Nat) → Except CoreFault (List Word)
  | 0, _ => .ok []
  | count + 1, a => do
    let p ← romRead32 rom a
    let ps ← readRaster rom count (a + 4)
    return p :: ps

/-- `DecodeSprite(a)` (rule R185). -/
def decodeSprite (rom : List Byte) (a : Nat) : Except CoreFault Sprite := do
  let w ← romRead16 rom a
  let h ← romRead16 rom (a + 2)
  let px ← readRaster rom (w.toNat * h.toNat) (a + 4)
  return { w := w, h := h, px := px }

/-- `GetSprite(a)`: the image, and the state with the image in the cache (rule R186). A hit does not read the ROM; a decode
that faults inserts nothing. -/
def State.getSprite (s : State) (a : Word) : Except CoreFault (Sprite × State) :=
  match s.cached a with
  | some img => .ok (img, s)
  | none => do
    let img ← decodeSprite s.rom a.toNat
    return (img, s.cacheSprite a img)

/-- The writes of `Blit` from pixel number `k` on, where pixel number `k = j*w + i` of the row-major raster is column
`k mod w` of row `k div w`: each pixel wraps at the surface's edges by itself, and a later pixel overwrites an earlier one
(rule R187). -/
def State.blitFrom (px0 py0 w : Nat) : (k : Nat) → List Word → State → State
  | _, [], s => s
  | k, p :: ps, s =>
    State.blitFrom px0 py0 w (k + 1) ps
      (s.plotBack ((px0 + k % w) % s.cfg.fbWidth) ((py0 + k / w) % s.cfg.fbHeight) p)

/-- `Blit(px0, py0, (w, h, px))` (rule R187). -/
def State.blit (s : State) (px0 py0 : Nat) (img : Sprite) : State := State.blitFrom px0 py0 img.w.toNat 0 img.px s

/-- SWAP_BUFFERS: exchange the roles of the surfaces; no pixel is touched (rule R180). -/
def execSwapBuffers (s : State) : StepOutcome :=
  s.complete (.ok ({ s with current := 1 - s.current }.fallThrough 1))

/-- DRAW_PIXEL: plot one pixel of the back surface (rule R181). -/
def execDrawPixel (xReg yReg : Byte) (color : Word) (s : State) : StepOutcome :=
  s.complete do
    let a ← regIndex xReg
    let b ← regIndex yReg
    return (s.plotBack (s.column a) (s.row b) color).fallThrough 7

/-- DRAW_SPRITE: decode and cache the sprite if it is absent, then blit it onto the back surface (rule R188). -/
def execDrawSprite (xReg yReg : Byte) (romAddr : Word) (s : State) : StepOutcome :=
  s.complete do
    let a ← regIndex xReg
    let b ← regIndex yReg
    let (img, t) ← s.getSprite romAddr
    return (t.blit (s.column a) (s.row b) img).fallThrough 7

end Sys2Proof.Machine
end

