-- ==== Sys2Proof/Machine/Special.lean ====
section
/-! DEFINITION. The opcodes outside the instruction table of the source: IDLE, HALT and the unrecognised ones (spec file
`40_fetch_step_special.md`). -/

namespace Sys2Proof.Machine

/-- IDLE: the counter is rewound to the opcode itself; only `steps` changes (rule R124). -/
def execIdle (s : State) : StepOutcome := s.complete (.ok s)

/-- NOP, an unrecognised opcode: it consumes its one byte (rules R96, R126). -/
def execNop (_opcode : Byte) (s : State) : StepOutcome := s.complete (.ok (s.fallThrough 1))

/-- HALT: `pc` moves past the byte, `status` becomes HALTED, and the step is not counted (rules R125, R34). -/
def execHalt (s : State) : StepOutcome := .next { s.fallThrough 1 with status := .halted }

end Sys2Proof.Machine
end

