-- ==== Sys2Proof/Machine/StringIo.lean ====
section
/-! DEFINITION. STORE_STR, PRINT_MEM and PRINT_ROM (spec file `44_string_io.md`). A string is the bytes before the first
0x00 at or above its address. Every check comes before the first write (rule R211), so the scans answer the string's bytes
or a fault. -/

namespace Sys2Proof.Machine

/-- The bytes of a null-terminated string at the head of `bs`, the terminator left out; none when no terminator follows. -/
def stringBytes : List Byte → Option (List Byte)
  | [] => none
  | b :: bs => if b = 0 then some [] else (stringBytes bs).map (b :: ·)

/-- The scan of `RomStrLen(a)`, answering the string it walks over (rule R170). -/
def romString (rom : List Byte) (a : Nat) : Except CoreFault (List Byte) :=
  match stringBytes (rom.drop a) with
  | some bs => .ok bs
  | none => .error .romFault

/-- The scan of `MemStrLen`, answering the string it walks over; `fuel` bounds the bytes left below the
top of the RAM (rule R170). -/
def State.memStringFrom (s : State) : (fuel a : Nat) → Except CoreFault (List Byte)
  | 0, _ => .error .memoryFault
  | fuel + 1, a => do
    let b ← s.memRead8 a
    if b = 0 then return []
    let bs ← s.memStringFrom fuel (a + 1)
    return b :: bs

/-- The string in the RAM at `a`: a scan that leaves the RAM faults. No scan is longer than the RAM. -/
def State.memString (s : State) (a : Nat) : Except CoreFault (List Byte) := s.memStringFrom (ramSize + 1) a

/-- Phase 1 of STORE_STR, on the ROM bytes from the source address on and the destination address: at each byte the ROM
bound is tested first, then the RAM bound, then the terminator (rule R171). It answers the bytes to copy, terminator
included. -/
def copyScan : List Byte → Nat → Except CoreFault (List Byte)
  | [], _ => .error .romFault
  | b :: bs, dst =>
    if dst ≥ ramSize then .error .memoryFault
    else if b = 0 then .ok [b]
    else do
      let rest ← copyScan bs (dst + 1)
      return b :: rest

/-- STORE_STR: copy the string at ROM[srcAddr] to memory[dstAddr], terminator included (rule R171). -/
def execStoreStr (srcAddr dstAddr : Word) (s : State) : StepOutcome :=
  s.complete do
    let bs ← copyScan (s.rom.drop srcAddr.toNat) dstAddr.toNat
    return (s.setRamBytes dstAddr.toNat bs).fallThrough 9

/-- PRINT_MEM: send the string at memory[addr], without its terminator, then flush (rule R172). -/
def execPrintMem (addr : Word) (s : State) : StepOutcome :=
  s.complete do
    let bs ← s.memString addr.toNat
    return (s.print bs).fallThrough 5

/-- PRINT_ROM: the same from the ROM (rule R173). -/
def execPrintRom (addr : Word) (s : State) : StepOutcome :=
  s.complete do
    let bs ← romString s.rom addr.toNat
    return (s.print bs).fallThrough 5

end Sys2Proof.Machine
end

