-- ==== Sys2Proof/Machine/Dispatch.lean ====
section
/-! DEFINITION. The execution of one decoded instruction: one arm per constructor of `Instr` (spec rule R94). -/

namespace Sys2Proof.Machine

def exec (i : Instr) (s : State) : Host.Outcome State Fault Refusal :=
  match i with
  -- 40_fetch_step_special.md
  | .idle => Sys2Proof.Machine.execIdle s
  -- 41_data_movement.md
  | .mov reg imm => Sys2Proof.Machine.execMov reg imm s
  | .storeI reg addr => Sys2Proof.Machine.execStoreI reg addr s
  | .loadI reg addr => Sys2Proof.Machine.execLoadI reg addr s
  | .store reg1 reg2 => Sys2Proof.Machine.execStore reg1 reg2 s
  | .load reg1 reg2 => Sys2Proof.Machine.execLoad reg1 reg2 s
  -- 42_arithmetic.md
  | .add reg1 reg2 => Sys2Proof.Machine.execAdd reg1 reg2 s
  | .addI reg imm => Sys2Proof.Machine.execAddI reg imm s
  | .sub reg1 reg2 => Sys2Proof.Machine.execSub reg1 reg2 s
  | .subI reg imm => Sys2Proof.Machine.execSubI reg imm s
  | .mul reg1 reg2 => Sys2Proof.Machine.execMul reg1 reg2 s
  | .div reg1 reg2 => Sys2Proof.Machine.execDiv reg1 reg2 s
  -- 43_control_flow.md
  | .jmp addr => Sys2Proof.Machine.execJmp addr s
  | .jeq reg1 reg2 addr => Sys2Proof.Machine.execJeq reg1 reg2 addr s
  | .jne reg1 reg2 addr => Sys2Proof.Machine.execJne reg1 reg2 addr s
  -- 44_string_io.md
  | .storeStr srcAddr dstAddr => Sys2Proof.Machine.execStoreStr srcAddr dstAddr s
  | .printMem addr => Sys2Proof.Machine.execPrintMem addr s
  | .printRom addr => Sys2Proof.Machine.execPrintRom addr s
  -- 43_control_flow.md
  | .call addr => Sys2Proof.Machine.execCall addr s
  | .ret => Sys2Proof.Machine.execRet s
  -- 45_drawing.md
  | .swapBuffers => Sys2Proof.Machine.execSwapBuffers s
  | .drawPixel xReg yReg color => Sys2Proof.Machine.execDrawPixel xReg yReg color s
  | .drawSprite xReg yReg romAddr => Sys2Proof.Machine.execDrawSprite xReg yReg romAddr s
  -- 43_control_flow.md
  | .jgt reg1 reg2 addr => Sys2Proof.Machine.execJgt reg1 reg2 addr s
  -- 40_fetch_step_special.md
  | .nop opcode => Sys2Proof.Machine.execNop opcode s
  | .halt => Sys2Proof.Machine.execHalt s

end Sys2Proof.Machine
end

