-- ==== Sys2Proof/Machine/Fetch.lean ====
section
/-! DEFINITION. Instruction fetch (spec rules R120 to R122, R99) and the placing of one instruction where it
fetches. -/

namespace Sys2Proof.Machine

/-- The bytes that fetch can read from the address `a` on, at most `n`: `npc` advances modulo 2^32 and the window ends
before the first address at or beyond ROM_SIZE (rules R25, R122). -/
def fetchWindow (rom : List Byte) : (n : Nat) → (a : Word) → List Byte
  | 0, _ => []
  | n + 1, a =>
    match rom[a.toNat]? with
    | some b => b :: fetchWindow rom n (a + 1)
    | none => []

/-- What a step finds to do. -/
inductive Fetched where
  /-- Nothing: the core is not running, or `pc` is at or beyond ROM_SIZE (rules R120, R208). -/
  | stopped
  /-- The opcode is there and an operand byte is beyond the ROM: RomFault (rules R99, R122). -/
  | truncated
  /-- An instruction with all its operands. -/
  | instr (i : Instr)
  deriving DecidableEq, Repr

/-- The fetch of a step: the status test, the end-of-ROM test, the opcode and all operand bytes, before anything else the
instruction does (rules R120 to R122). -/
def State.fetch (s : State) : Fetched :=
  match s.status with
  | .run =>
    match decode (fetchWindow s.rom maxInstrLength s.pc) with
    | .instr i _ => .instr i
    | .truncated => .truncated
    | .noOpcode => .stopped
  | .halted | .faulted => .stopped

/-- A ROM with the byte `b` at the address `a`, filled up with 0x00 where it was shorter. -/
def romPut (rom : List Byte) (a : Nat) (b : Byte) : List Byte :=
  if a < rom.length then rom.set a b else rom ++ List.replicate (a - rom.length) 0 ++ [b]

/-- A ROM with the bytes `bs` where fetch reads them from the address `a` on, modulo 2^32 as fetch goes. -/
def romPutBytes (rom : List Byte) (a : Word) : List Byte → List Byte
  | [] => rom
  | b :: bs => romPutBytes (romPut rom a.toNat b) (a + 1) bs

end Sys2Proof.Machine
end

