-- ==== Sys2Proof/Machine/Step.lean ====
section
/-! DEFINITION. One step of the core (spec rule R120) and the placing of an instruction where the next step fetches. -/

namespace Sys2Proof.Machine

/-- One `Step` transaction (rule R120). A core that has stopped, or whose `pc` is at or beyond ROM_SIZE, does not change; a
truncated instruction raises RomFault; any other instruction is executed whole. -/
def step (s : State) : Host.Outcome State Fault Refusal :=
  match s.fetch with
  | .stopped => .next s
  | .truncated => .next (s.raise .romFault)
  | .instr i => exec i s

/-- `s` with one instruction, given in the numbering of `tableBytes` (log entry 12), in the ROM from `pc` on, and running: what a LoadRom
of a program that holds the instruction there stands for (log entry 5). All 9 bytes of the longest instruction are placed, so
that every bit above `nbits` is 0. -/
def State.withFetchWord (s : State) (nbits w : Nat) : State :=
  { s with rom := romPutBytes s.rom s.pc (tableBytes nbits w), status := .run }

end Sys2Proof.Machine
end

