-- ==== Sys2Proof/Machine/HostPort.lean ====
section
/-! DEFINITION. The interface between the core and its host: the seven indivisible transactions (spec rules R238 to R246) and
the answer `cont` of a step (rules R120, R241). -/

namespace Sys2Proof.Machine

/-! ## What the host reads (rules R120, R200, R242 to R245) -/

/-- The code of `fault_cause`: 0 for none, else the fault's code (rule R200). -/
def faultCode : Option CoreFault → Nat
  | none => 0
  | some .romFault => 1
  | some .memoryFault => 2
  | some .registerFault => 3
  | some .stackFault => 4
  | some .arithmeticFault => 5

/-- The answer `cont` that a step of `s` gives: true exactly when an instruction is executed and the core still runs after
it, so false for each of the three kinds of stop: end of ROM, HALT, fault (rule R120). -/
def State.cont (s : State) : Bool :=
  match s.fetch with
  | .stopped | .truncated => false
  | .instr _ =>
    match step s with
    | .next t => decide (t.status = .run)
    | .fault _ | .refused _ => false

/-! ## The transactions -/

/-- The core together with the bookkeeping of its host port, which no instruction sees (log entry 4). -/
structure Session where
  /-- The core. -/
  core : State
  /-- How many console events the host has taken since Reset (rule R244). -/
  taken : Nat
  /-- LoadRom is still allowed: Reset has happened, and neither LoadRom nor Step since (rule R240). -/
  loadOpen : Bool
  deriving DecidableEq, Repr

/-- A transaction with its arguments (rule R238). -/
inductive Transaction where
  | reset
  | loadRom (bytes : List Byte)
  | step
  | presentIndex
  | readPixel (surface : Fin 2) (px py : Nat)
  | consoleTake
  | status
  deriving DecidableEq, Repr

/-- What a transaction answers. -/
inductive Reply where
  /-- Reset and LoadRom answer nothing. -/
  | done
  /-- Step: whether execution may continue. -/
  | cont (c : Bool)
  /-- PresentIndex: the surface to present. -/
  | surface (k : Fin 2)
  /-- ReadPixel. -/
  | pixel (c : Word)
  /-- ConsoleTake. -/
  | events (es : List ConsoleEvent)
  /-- Status: `status`, the code of `fault_cause`, `pc`. -/
  | status (st : Status) (cause : Nat) (pc : Word)
  deriving DecidableEq, Repr

/-- The outcome of a transaction. -/
abbrev PortOutcome := Host.Outcome (Session × Reply) Fault Refusal

/-- `Reset()`: every piece of state at its reset value, an empty ROM, nothing to take; the parameters stay (rules R230, R233,
R239). -/
def portReset (p : Session) : PortOutcome :=
  .next ({ core := State.resetWith p.core.cfg, taken := 0, loadOpen := true }, .done)

/-- `LoadRom(bytes)`: once per run, after Reset and before the first Step, at most 2^32 bytes (rule R240). -/
def portLoadRom (bytes : List Byte) (p : Session) : PortOutcome :=
  if p.loadOpen = false then .refused .loadRomOutOfOrder
  else if bytes.length > maxRomSize then .refused .romTooLong
  else .next ({ p with core := { p.core with rom := bytes }, loadOpen := false }, .done)

/-- `Step() -> cont` (rule R241). -/
def portStep (p : Session) : PortOutcome :=
  match step p.core with
  | .next t => .next ({ p with core := t, loadOpen := false }, .cont p.core.cont)
  | .fault f => .fault f
  | .refused r => .refused r

/-- `PresentIndex() -> s` (rule R242). -/
def portPresentIndex (p : Session) : PortOutcome := .next (p, .surface p.core.current)

/-- `ReadPixel(s, px, py) -> c`, for a pixel of the surface (rule R243). -/
def portReadPixel (k : Fin 2) (px py : Nat) (p : Session) : PortOutcome :=
  if px < p.core.cfg.fbWidth ∧ py < p.core.cfg.fbHeight then .next (p, .pixel (p.core.pixel k px py))
  else .refused .pixelOutsideSurface

/-- `ConsoleTake() -> events`: the events appended since the last take, in order (rule R244). -/
def portConsoleTake (p : Session) : PortOutcome :=
  .next ({ p with taken := p.core.console.length }, .events (p.core.console.drop p.taken))

/-- `Status() -> (status, fault_cause, pc)` (rule R245). -/
def portStatus (p : Session) : PortOutcome :=
  .next (p, .status p.core.status (faultCode p.core.faultCause) p.core.pc)

/-- One transaction. -/
def transact (x : Transaction) (p : Session) : PortOutcome :=
  match x with
  | .reset => portReset p
  | .loadRom bytes => portLoadRom bytes p
  | .step => portStep p
  | .presentIndex => portPresentIndex p
  | .readPixel k px py => portReadPixel k px py p
  | .consoleTake => portConsoleTake p
  | .status => portStatus p

end Sys2Proof.Machine
end

