-- ==== Sys2Proof/Safety.lean ====
section
/-! DEFINITION. The terms that claims are stated in: what an instruction leaves unchanged, the tables of which instruction
writes what and may raise what (spec rules R20, R23, R207), the state after a fault (rule R211), the invariant of every
reachable state, and runs. -/

namespace Sys2Proof.Machine

/-! ## Frames -/

/-- The components of the state that a frame speaks about. -/
inductive Part where
  | cfg | rom | regs | pc | stack | sp | ram | surfaces | selector | cache | console | steps | status | faultCause
  deriving DecidableEq, Repr

/-- Two states agree on a component, as it is read: every register, every call-stack slot, every byte of the RAM, every
pixel of both surfaces, every cache key. -/
def SamePart (s t : State) : Part → Prop
  | .cfg => t.cfg = s.cfg
  | .rom => t.rom = s.rom
  | .regs => ∀ i : Fin 32, t.reg i = s.reg i
  | .pc => t.pc = s.pc
  | .stack => ∀ k, t.stackAt k = s.stackAt k
  | .sp => t.sp = s.sp
  | .ram => ∀ a, t.ramAt a = s.ramAt a
  | .surfaces => ∀ (k : Fin 2) px py, t.pixel k px py = s.pixel k px py
  | .selector => t.current = s.current
  | .cache => ∀ a, t.cached a = s.cached a
  | .console => t.console = s.console
  | .steps => t.steps = s.steps
  | .status => t.status = s.status
  | .faultCause => t.faultCause = s.faultCause

/-- Every component that is not in the list `ps` is unchanged from `s` to `t`. -/
def UnchangedBut (ps : List Part) (s t : State) : Prop := ∀ p, p ∉ ps → SamePart s t p

/-- The state after a fault: only `status` and `fault_cause` differ (rules R210, R211). -/
def afterFault (s : State) (f : CoreFault) : State := { s with status := .faulted, faultCause := some f }

/-! ## Tables of the instruction set -/

/-- The register-index bytes of an instruction, in encoding order (rule R91). -/
def registerOperands : Instr → List Byte
  | .mov r _ | .storeI r _ | .loadI r _ | .addI r _ | .subI r _ => [r]
  | .store r1 r2 | .load r1 r2 | .add r1 r2 | .sub r1 r2 | .mul r1 r2 | .div r1 r2 => [r1, r2]
  | .jeq r1 r2 _ | .jne r1 r2 _ | .jgt r1 r2 _ | .drawPixel r1 r2 _ | .drawSprite r1 r2 _ => [r1, r2]
  | .idle | .nop _ | .halt | .ret | .swapBuffers | .jmp _ | .call _ | .printMem _ | .printRom _ | .storeStr _ _ => []

/-- The table of rule R20, read by instruction: the components beside `pc`, `steps`, `status` and `fault_cause` that an
instruction may write. -/
def writtenBy : Instr → List Part
  | .mov _ _ | .loadI _ _ | .load _ _ | .add _ _ | .addI _ _ | .sub _ _ | .subI _ _ | .mul _ _ | .div _ _ => [.regs]
  | .storeI _ _ | .store _ _ | .storeStr _ _ => [.ram]
  | .call _ => [.stack, .sp]
  | .ret => [.sp]
  | .printMem _ | .printRom _ => [.console]
  | .swapBuffers => [.selector]
  | .drawPixel _ _ _ => [.surfaces]
  | .drawSprite _ _ _ => [.surfaces, .cache]
  | .idle | .nop _ | .halt | .jmp _ | .jeq _ _ _ | .jne _ _ _ | .jgt _ _ _ => []

/-- The table of rule R207 after the operand fetch: the faults an instruction may raise once its bytes are there. -/
def mayRaise : Instr → List CoreFault
  | .idle | .halt | .nop _ | .swapBuffers | .jmp _ => []
  | .ret | .call _ => [.stackFault]
  | .mov _ _ | .addI _ _ | .subI _ _ | .add _ _ | .sub _ _ | .mul _ _ => [.registerFault]
  | .div _ _ => [.registerFault, .arithmeticFault]
  | .storeI _ _ | .loadI _ _ | .store _ _ | .load _ _ => [.registerFault, .memoryFault]
  | .jeq _ _ _ | .jne _ _ _ | .jgt _ _ _ | .drawPixel _ _ _ => [.registerFault]
  | .storeStr _ _ => [.romFault, .memoryFault]
  | .printMem _ => [.memoryFault]
  | .printRom _ => [.romFault]
  | .drawSprite _ _ _ => [.registerFault, .romFault]

/-! ## Invariants -/

/-- Every sprite-cache entry is what decoding its ROM address gives (rules R32, R186). -/
def CacheCoherent (rom : List Byte) (c : Store Sprite) : Prop :=
  ∀ a img, lookup a c = some img → decodeSprite rom a = .ok img

/-- What holds in every state a run can reach. -/
structure State.Inv (s : State) : Prop where
  /-- The parameters are legal (rule R5). -/
  config : s.cfg.Legal
  /-- ROM_SIZE is at most 2^32 (rule R60). -/
  romSize : s.romSize ≤ 4294967296
  /-- The stack pointer stays within [0, STACK_CAP] (rule R26). -/
  stackPointer : s.sp ≤ s.cfg.stackCap
  /-- The slots stay below STACK_CAP and in canonical form (rule R26). -/
  stackSlots : cellsWf s.cfg.stackCap s.stack = true
  /-- The RAM is in canonical form (rule R61). -/
  ram : Memory.wf s.ram = true
  /-- Both surfaces are in canonical form: no pixel outside FB_WIDTH times FB_HEIGHT (rule R30). -/
  surfaces : ∀ k : Fin 2, Surface.wf s.cfg.fbWidth s.cfg.fbHeight s.fb[k.val] = true
  /-- The cache has one entry for a key (rule R32). -/
  cacheKeys : sortedKeys s.scache = true
  /-- The cache agrees with the ROM (rule R33). -/
  cacheCoherent : CacheCoherent s.rom s.scache
  /-- `fault_cause` names a fault exactly when the core is FAULTED (rule R35). -/
  cause : s.status = .faulted ↔ s.faultCause ≠ none

/-! ## Stops and runs -/

/-- The core has stopped: the next step changes nothing (rules R120, R127). -/
def State.Stopped (s : State) : Prop := s.status ≠ .run ∨ s.romSize ≤ s.pc.toNat

/-- The instructions of a list executed one after the other. -/
def execAll : List Instr → State → StepOutcome
  | [], s => .next s
  | i :: is, s =>
    match exec i s with
    | .next t => execAll is t
    | .fault f => .fault f
    | .refused r => .refused r

end Sys2Proof.Machine
end

