-- ==== Sys2Proof/Certificates/Slice0/Obligations.lean ====
section
/-! DEFINITION. The statements about the model, each a proposition that a prover settles. None rests on the parameter values of
`State.reset` (log entry 2): every statement holds for all legal parameters. Where a statement speaks of the state after a fault
(`afterFault`), that `pc` stays at the faulting opcode and nothing but `status` and `fault_cause` changes is rule R211, the spec's own
decision D6 (log entry 6); other decisions of the spec are named at the statements that rest on them. -/

open Sys2Proof Sys2Proof.Machine

/-! ## Encoding, fetch and stops -/

/-- Words written out from the formats of rule R91 and the opcodes of rule R94, one or more for each format and family, decode to
the instructions they stand for. -/
def Obligations.SpecWordsDecode : Prop :=
  decode [0x00, 0xFF] = .instr .idle [0xFF] ∧
  decode [0x01, 0x00, 0x00, 0x00, 0x00, 0x05] = .instr (.mov 0 5) [] ∧
  decode [0x02, 0x03, 0x00, 0x00, 0x01, 0x02] = .instr (.storeI 3 0x102) [] ∧
  decode [0x05, 0x04, 0x02] = .instr (.load 4 2) [] ∧
  decode [0x0B, 0x00, 0x20] = .instr (.div 0 0x20) [] ∧
  decode [0x0C, 0x00, 0x00, 0x00, 0x12] = .instr (.jmp 0x12) [] ∧
  decode [0x17, 0x01, 0x02, 0x00, 0x00, 0x00, 0x27, 0x0C] = .instr (.jgt 1 2 0x27) [0x0C] ∧
  decode [0x0F, 0x00, 0x00, 0x00, 0x15, 0x00, 0x00, 0x02, 0x00] = .instr (.storeStr 0x15 0x200) [] ∧
  decode [0x16, 0x00, 0x01, 0x00, 0x00, 0x00, 0x2F] = .instr (.drawSprite 0 1 0x2F) [] ∧
  decode [0x48, 0x49] = .instr (.nop 0x48) [0x49] ∧
  decode [0xFF] = .instr .halt []

/-- Every well-formed instruction, with every operand at every value, is what its encoding decodes to, and no byte after it is
consumed (rules R90 to R94). -/
def Obligations.DecodeOfEncode : Prop :=
  ∀ (i : Instr) (rest : List Byte), i.wellFormed = true → decode (encode i ++ rest) = .instr i rest

/-- A byte sequence that decodes is the encoding of the well-formed instruction it decodes to, followed by the rest: no bit of an
encoding is dropped and no two encodings are confused (rules R90 to R97). -/
def Obligations.EncodeOfDecode : Prop :=
  ∀ (bs rest : List Byte) (i : Instr), decode bs = .instr i rest → i.wellFormed = true ∧ bs = encode i ++ rest

/-- Every opcode byte, followed by enough bytes, decodes to an instruction of that opcode; the opcode byte alone fixes how many
bytes are consumed, and they are 1, 3, 5, 6, 7 or 9 (rules R90, R95). -/
def Obligations.EveryOpcodeDecodes : Prop :=
  ∀ (op : Byte) (tail : List Byte), 8 ≤ tail.length →
    (∃ i, decode (op :: tail) = .instr i (tail.drop (opcodeLength op - 1)) ∧ i.opcode = op ∧ i.wellFormed = true) ∧
    opcodeLength op ∈ [1, 3, 5, 6, 7, 9]

/-- A running core whose fetchable bytes at `pc` decode to an instruction executes exactly that instruction. What lies after it does
not matter, and the meaning itself moves `pc` past the instruction's bytes. -/
def Obligations.StepRunsDecodedInstruction : Prop :=
  ∀ (s : State) (i : Instr) (rest : List Byte),
    s.status = .run → decode (fetchWindow s.rom 9 s.pc) = .instr i rest →
    step s = exec i s ∧ s.cont = (match exec i s with | .next t => decide (t.status = .run) | _ => false)

/-- A running core whose ROM holds the encoding of a well-formed instruction from `pc` on, addresses taken modulo 2^32 as fetch goes,
executes exactly that instruction (rules R90, R120 to R122). -/
def Obligations.StepRunsEncodedInstruction : Prop :=
  ∀ (s : State) (i : Instr), i.wellFormed = true → s.status = .run →
    (∀ k (h : k < (encode i).length), s.rom[(s.pc.toNat + k) % 4294967296]? = some (encode i)[k]) →
    step s = exec i s

/-- A core that is halted or faulted, or whose `pc` is at or beyond ROM_SIZE, answers false and does not change, however many steps
are requested (rules R120, R208, R210, R213; the spec's decisions D3 and D23). -/
def Obligations.StoppedCoreNeverChanges : Prop :=
  ∀ s : State, s.Stopped → s.cont = false ∧ ∀ n, Host.Core.run core n s = .next s

/-- Rule R99: an opcode below ROM_SIZE with one of its operand bytes at or beyond ROM_SIZE raises RomFault; an opcode that would itself
be beyond ROM_SIZE is a clean stop. -/
def Obligations.TruncatedInstructionRaisesRomFault : Prop :=
  ∀ s : State, s.status = .run →
    (∀ (op : Byte) (k : Nat), s.rom[s.pc.toNat]? = some op → 1 ≤ k → k < opcodeLength op →
      s.rom[(s.pc.toNat + k) % 4294967296]? = none → step s = .next (afterFault s .romFault)) ∧
    (s.rom.length ≤ s.pc.toNat → step s = .next s)

/-- Rule R25: while ROM_SIZE is below 2^32, an instruction that was fetched whole ends at or below ROM_SIZE, so no successful fetch
wraps (the spec derives it; the width of `pc` is its decision D9). -/
def Obligations.FetchNeverWrapsBelowFullRom : Prop :=
  ∀ (s : State) (i : Instr), s.rom.length < 4294967296 → s.fetch = .instr i → s.pc.toNat + i.length ≤ s.rom.length

/-- Placing an instruction given as one number, in the model's own bit numbering (log entry 12), makes the next step execute
exactly the instruction the decoder reads from it (the model's own interface, log entry 5). -/
def Obligations.PlacedWordIsExecuted : Prop :=
  ∀ (s : State) (nbits w : Nat) (i : Instr), decodeTableWord nbits w = some i →
    step (s.withFetchWord nbits w) = exec i (s.withFetchWord nbits w)

/-! ## The special opcodes -/

/-- Rule R124: IDLE writes `steps` only, the step answers true, nothing faults, and a core that reaches the opcode 0x00 executes it at
every later step for ever. -/
def Obligations.IdleSpinsForEver : Prop :=
  encode .idle = [0x00] ∧
  (∀ s : State, exec .idle s = .next { s with steps := s.steps + 1 }) ∧
  (∀ s : State, s.status = .run → s.rom[s.pc.toNat]? = some 0x00 →
    s.cont = true ∧ ∀ n, Host.Core.run core n s = .next { s with steps := s.steps + BitVec.ofNat 32 n })

/-- Rule R125: HALT leaves `pc` one past its byte and `status` HALTED, does not count the step, answers false, raises nothing, and
every later step changes nothing (that HALTED is a state of the core is the spec's decision D3). -/
def Obligations.HaltStopsTheCore : Prop :=
  encode .halt = [0xFF] ∧
  (∀ s : State, exec .halt s = .next { s with pc := s.pc + 1, status := .halted }) ∧
  (∀ s : State, s.status = .run → s.rom[s.pc.toNat]? = some 0xFF →
    s.cont = false ∧ ∀ n, Host.Core.run core (n + 1) s = .next { s with pc := s.pc + 1, status := .halted })

/-- Rule R126: each of the 231 unrecognised opcodes consumes its one byte, writes `pc` and `steps` only, and the step answers true. -/
def Obligations.UnrecognisedOpcodesAreNops : Prop :=
  ∀ op : Byte, 0x18 ≤ op.toNat → op.toNat ≤ 0xFE →
    encode (.nop op) = [op] ∧
    ∀ s : State, exec (.nop op) s = .next { s with pc := s.pc + 1, steps := s.steps + 1 } ∧
      (s.status = .run → s.rom[s.pc.toNat]? = some op →
        step s = .next { s with pc := s.pc + 1, steps := s.steps + 1 } ∧ s.cont = true)

/-! ## Data movement -/

/-- Rule R140: MOV writes its immediate to the register and nothing else but `pc` and `steps`, or raises RegisterFault. -/
def Obligations.MovWritesImmediate : Prop :=
  ∀ (r : Byte) (imm : Word) (s : State),
    encode (.mov r imm) = 0x01 :: r :: wordBytes imm ∧
    (∀ d : Fin 32, r.toNat = d → ∃ t, exec (.mov r imm) s = .next t ∧ t.reg d = imm ∧ (∀ j, j ≠ d → t.reg j = s.reg j) ∧
      t.pc = s.pc + 6 ∧ t.steps = s.steps + 1 ∧ UnchangedBut [.regs, .pc, .steps] s t) ∧
    (32 ≤ r.toNat → exec (.mov r imm) s = .next (afterFault s .registerFault))

/-- Rules R142 and R144: LOAD_I and LOAD write to the register the big-endian value of the four RAM bytes at the address (for LOAD the
whole value of the address register, read before the write); a bad register byte raises RegisterFault, else an address of
65533 or more MemoryFault. -/
def Obligations.LoadsReadBigEndianRam : Prop :=
  ∀ (r r2 : Byte) (addr : Word) (s : State),
    encode (.loadI r addr) = 0x03 :: r :: wordBytes addr ∧ encode (.load r r2) = [0x05, r, r2] ∧
    (∀ d : Fin 32, r.toNat = d → addr.toNat < 65533 → ∃ t, exec (.loadI r addr) s = .next t ∧
      (t.reg d).toNat = 16777216 * (s.ramAt addr.toNat).toNat + 65536 * (s.ramAt (addr.toNat + 1)).toNat
        + 256 * (s.ramAt (addr.toNat + 2)).toNat + (s.ramAt (addr.toNat + 3)).toNat ∧
      (∀ j, j ≠ d → t.reg j = s.reg j) ∧ t.pc = s.pc + 6 ∧ t.steps = s.steps + 1 ∧
      UnchangedBut [.regs, .pc, .steps] s t) ∧
    (r.toNat < 32 → 65533 ≤ addr.toNat → exec (.loadI r addr) s = .next (afterFault s .memoryFault)) ∧
    (32 ≤ r.toNat → exec (.loadI r addr) s = .next (afterFault s .registerFault)) ∧
    (∀ d a : Fin 32, r.toNat = d → r2.toNat = a → (s.reg a).toNat < 65533 → ∃ t, exec (.load r r2) s = .next t ∧
      (t.reg d).toNat = 16777216 * (s.ramAt (s.reg a).toNat).toNat + 65536 * (s.ramAt ((s.reg a).toNat + 1)).toNat
        + 256 * (s.ramAt ((s.reg a).toNat + 2)).toNat + (s.ramAt ((s.reg a).toNat + 3)).toNat ∧
      (∀ j, j ≠ d → t.reg j = s.reg j) ∧ t.pc = s.pc + 3 ∧ t.steps = s.steps + 1 ∧
      UnchangedBut [.regs, .pc, .steps] s t) ∧
    (∀ a : Fin 32, r.toNat < 32 → r2.toNat = a → 65533 ≤ (s.reg a).toNat →
      exec (.load r r2) s = .next (afterFault s .memoryFault)) ∧
    (32 ≤ r.toNat ∨ 32 ≤ r2.toNat → exec (.load r r2) s = .next (afterFault s .registerFault))

/-- Rules R141 and R143: STORE_I and STORE write the register's value to the four RAM bytes at the address, most significant byte
first, and change no other byte of the RAM; a bad register byte raises RegisterFault, else an address of 65533 or more
MemoryFault with no byte written. -/
def Obligations.StoresWriteBigEndianRam : Prop :=
  ∀ (r r2 : Byte) (addr : Word) (s : State),
    encode (.storeI r addr) = 0x02 :: r :: wordBytes addr ∧ encode (.store r r2) = [0x04, r, r2] ∧
    (∀ v : Fin 32, r.toNat = v → addr.toNat < 65533 → ∃ t, exec (.storeI r addr) s = .next t ∧
      (∀ k, k < 4 → (t.ramAt (addr.toNat + k)).toNat = (s.reg v).toNat / 256 ^ (3 - k) % 256) ∧
      (∀ b, b < addr.toNat ∨ addr.toNat + 4 ≤ b → t.ramAt b = s.ramAt b) ∧
      t.pc = s.pc + 6 ∧ t.steps = s.steps + 1 ∧ UnchangedBut [.ram, .pc, .steps] s t) ∧
    (r.toNat < 32 → 65533 ≤ addr.toNat → exec (.storeI r addr) s = .next (afterFault s .memoryFault)) ∧
    (32 ≤ r.toNat → exec (.storeI r addr) s = .next (afterFault s .registerFault)) ∧
    (∀ v a : Fin 32, r.toNat = v → r2.toNat = a → (s.reg a).toNat < 65533 → ∃ t, exec (.store r r2) s = .next t ∧
      (∀ k, k < 4 → (t.ramAt ((s.reg a).toNat + k)).toNat = (s.reg v).toNat / 256 ^ (3 - k) % 256) ∧
      (∀ b, b < (s.reg a).toNat ∨ (s.reg a).toNat + 4 ≤ b → t.ramAt b = s.ramAt b) ∧
      t.pc = s.pc + 3 ∧ t.steps = s.steps + 1 ∧ UnchangedBut [.ram, .pc, .steps] s t) ∧
    (∀ a : Fin 32, r.toNat < 32 → r2.toNat = a → 65533 ≤ (s.reg a).toNat →
      exec (.store r r2) s = .next (afterFault s .memoryFault)) ∧
    (32 ≤ r.toNat ∨ 32 ≤ r2.toNat → exec (.store r r2) s = .next (afterFault s .registerFault))

/-- A STORE followed by a LOAD at the same address gives back the stored value, for any address within the RAM, whichever register
receives it (rule R68). -/
def Obligations.StoreThenLoadRoundTrips : Prop :=
  ∀ (rv ra rd : Byte) (v a d : Fin 32) (s : State),
    rv.toNat = v → ra.toNat = a → rd.toNat = d → (s.reg a).toNat < 65533 →
    ∃ t u, exec (.store rv ra) s = .next t ∧ exec (.load rd ra) t = .next u ∧ u.reg d = s.reg v

/-! ## Arithmetic -/

/-- Rules R150, R152 and R154: ADD, SUB and MUL write the result modulo 2^32 to the first register and nothing else but `pc` and
`steps`; both registers are read first, so naming one register twice is legal; a bad register byte raises
RegisterFault and nothing else faults. -/
def Obligations.RegisterArithmeticWraps : Prop :=
  ∀ (r1 r2 : Byte) (s : State),
    encode (.add r1 r2) = [0x06, r1, r2] ∧ encode (.sub r1 r2) = [0x08, r1, r2] ∧ encode (.mul r1 r2) = [0x0A, r1, r2] ∧
    (∀ d a : Fin 32, r1.toNat = d → r2.toNat = a →
      (∃ t, exec (.add r1 r2) s = .next t ∧ (t.reg d).toNat = ((s.reg d).toNat + (s.reg a).toNat) % 4294967296 ∧
        (∀ j, j ≠ d → t.reg j = s.reg j) ∧ t.pc = s.pc + 3 ∧ t.steps = s.steps + 1 ∧
        UnchangedBut [.regs, .pc, .steps] s t) ∧
      (∃ t, exec (.sub r1 r2) s = .next t ∧
        (t.reg d).toNat = ((s.reg d).toNat + 4294967296 - (s.reg a).toNat) % 4294967296 ∧
        (∀ j, j ≠ d → t.reg j = s.reg j) ∧ t.pc = s.pc + 3 ∧ t.steps = s.steps + 1 ∧
        UnchangedBut [.regs, .pc, .steps] s t) ∧
      (∃ t, exec (.mul r1 r2) s = .next t ∧ (t.reg d).toNat = ((s.reg d).toNat * (s.reg a).toNat) % 4294967296 ∧
        (∀ j, j ≠ d → t.reg j = s.reg j) ∧ t.pc = s.pc + 3 ∧ t.steps = s.steps + 1 ∧
        UnchangedBut [.regs, .pc, .steps] s t)) ∧
    (32 ≤ r1.toNat ∨ 32 ≤ r2.toNat →
      exec (.add r1 r2) s = .next (afterFault s .registerFault) ∧
      exec (.sub r1 r2) s = .next (afterFault s .registerFault) ∧
      exec (.mul r1 r2) s = .next (afterFault s .registerFault))

/-- Rules R151 and R153: ADD_I and SUB_I write the register plus or minus the unsigned immediate modulo 2^32, or raise
RegisterFault. -/
def Obligations.ImmediateArithmeticWraps : Prop :=
  ∀ (r : Byte) (imm : Word) (s : State),
    encode (.addI r imm) = 0x07 :: r :: wordBytes imm ∧ encode (.subI r imm) = 0x09 :: r :: wordBytes imm ∧
    (∀ d : Fin 32, r.toNat = d →
      (∃ t, exec (.addI r imm) s = .next t ∧ (t.reg d).toNat = ((s.reg d).toNat + imm.toNat) % 4294967296 ∧
        (∀ j, j ≠ d → t.reg j = s.reg j) ∧ t.pc = s.pc + 6 ∧ t.steps = s.steps + 1 ∧
        UnchangedBut [.regs, .pc, .steps] s t) ∧
      (∃ t, exec (.subI r imm) s = .next t ∧
        (t.reg d).toNat = ((s.reg d).toNat + 4294967296 - imm.toNat) % 4294967296 ∧
        (∀ j, j ≠ d → t.reg j = s.reg j) ∧ t.pc = s.pc + 6 ∧ t.steps = s.steps + 1 ∧
        UnchangedBut [.regs, .pc, .steps] s t)) ∧
    (32 ≤ r.toNat →
      exec (.addI r imm) s = .next (afterFault s .registerFault) ∧
      exec (.subI r imm) s = .next (afterFault s .registerFault))

/-- Rules R155 and R205: DIV writes the unsigned quotient rounded toward zero; a zero divisor raises ArithmeticFault whatever the
dividend, after the register check. That the division is unsigned is the spec's decision D27. -/
def Obligations.DivWritesUnsignedQuotient : Prop :=
  ∀ (r1 r2 : Byte) (s : State),
    encode (.div r1 r2) = [0x0B, r1, r2] ∧
    (∀ d a : Fin 32, r1.toNat = d → r2.toNat = a →
      ((s.reg a).toNat ≠ 0 → ∃ t, exec (.div r1 r2) s = .next t ∧
        (t.reg d).toNat = (s.reg d).toNat / (s.reg a).toNat ∧
        (∀ j, j ≠ d → t.reg j = s.reg j) ∧ t.pc = s.pc + 3 ∧ t.steps = s.steps + 1 ∧
        UnchangedBut [.regs, .pc, .steps] s t) ∧
      ((s.reg a).toNat = 0 → exec (.div r1 r2) s = .next (afterFault s .arithmeticFault))) ∧
    (32 ≤ r1.toNat ∨ 32 ≤ r2.toNat → exec (.div r1 r2) s = .next (afterFault s .registerFault))

/-! ## Control flow -/

/-- Rule R160: JMP writes `pc` with its target, whatever the target, and raises nothing; a target at or beyond ROM_SIZE makes the next
step a clean stop. -/
def Obligations.JmpGoesToAnyTarget : Prop :=
  ∀ (addr : Word) (s : State),
    encode (.jmp addr) = 0x0C :: wordBytes addr ∧
    exec (.jmp addr) s = .next { s with pc := addr, steps := s.steps + 1 } ∧
    (s.rom.length ≤ addr.toNat → step { s with pc := addr, steps := s.steps + 1 } = .next { s with pc := addr, steps := s.steps + 1 })

/-- Rules R161 and R162: JEQ and JNE go to the target when all 32 bits of the two registers are equal, or differ, and fall through to
`pc` + 7 otherwise; a bad register byte raises RegisterFault whether or not the jump would be taken. -/
def Obligations.JeqJneCompareRegisters : Prop :=
  ∀ (r1 r2 : Byte) (addr : Word) (s : State),
    encode (.jeq r1 r2 addr) = 0x0D :: r1 :: r2 :: wordBytes addr ∧
    encode (.jne r1 r2 addr) = 0x0E :: r1 :: r2 :: wordBytes addr ∧
    (∀ a b : Fin 32, r1.toNat = a → r2.toNat = b →
      exec (.jeq r1 r2 addr) s =
        .next { s with pc := if (s.reg a).toNat = (s.reg b).toNat then addr else s.pc + 7, steps := s.steps + 1 } ∧
      exec (.jne r1 r2 addr) s =
        .next { s with pc := if (s.reg a).toNat = (s.reg b).toNat then s.pc + 7 else addr, steps := s.steps + 1 }) ∧
    (32 ≤ r1.toNat ∨ 32 ≤ r2.toNat →
      exec (.jeq r1 r2 addr) s = .next (afterFault s .registerFault) ∧
      exec (.jne r1 r2 addr) s = .next (afterFault s .registerFault))

/-- JGT goes to the target when the first register is greater than the second, both read unsigned (the spec's decision D27), and falls
through to `pc` + 7 otherwise; a bad register byte raises RegisterFault (rules R163, R22). -/
def Obligations.JgtComparesUnsigned : Prop :=
  ∀ (r1 r2 : Byte) (addr : Word) (s : State),
    encode (.jgt r1 r2 addr) = 0x17 :: r1 :: r2 :: wordBytes addr ∧
    (∀ a b : Fin 32, r1.toNat = a → r2.toNat = b →
      exec (.jgt r1 r2 addr) s =
        .next { s with pc := if (s.reg b).toNat < (s.reg a).toNat then addr else s.pc + 7, steps := s.steps + 1 }) ∧
    (32 ≤ r1.toNat ∨ 32 ≤ r2.toNat → exec (.jgt r1 r2 addr) s = .next (afterFault s .registerFault))

/-- Rules R164 and R27: CALL pushes the address of the instruction after it and jumps, changing no other slot and no register; at
capacity it raises StackFault and pushes nothing. -/
def Obligations.CallPushesReturnAddress : Prop :=
  ∀ (addr : Word) (s : State),
    encode (.call addr) = 0x12 :: wordBytes addr ∧
    (s.sp ≠ s.cfg.stackCap → ∃ t, exec (.call addr) s = .next t ∧ t.pc = addr ∧ t.sp = s.sp + 1 ∧
      t.stackAt s.sp = s.pc + 5 ∧ (∀ k, k ≠ s.sp → t.stackAt k = s.stackAt k) ∧ t.steps = s.steps + 1 ∧
      UnchangedBut [.stack, .sp, .pc, .steps] s t) ∧
    (s.sp = s.cfg.stackCap → exec (.call addr) s = .next (afterFault s .stackFault))

/-- Rules R165 and R28: RETURN pops the top slot into `pc` with no check of the target, and the popped slot keeps its value; on an empty
stack it raises StackFault. -/
def Obligations.ReturnPopsIntoCounter : Prop :=
  ∀ s : State,
    encode .ret = [0x13] ∧
    (s.sp ≠ 0 → exec .ret s = .next { s with pc := s.stackAt (s.sp - 1), sp := s.sp - 1, steps := s.steps + 1 }) ∧
    (s.sp = 0 → exec .ret s = .next (afterFault s .stackFault))

/-- N nested CALLs followed by N RETURNs, N at least 1 and no deeper than the capacity allows, come back to the instruction after the
first CALL with the stack pointer as before, every slot that was live before unchanged, and everything else but dead slots and
the step counter as it was (rules R164, R165, R167). -/
def Obligations.NestedCallsReturn : Prop :=
  ∀ (first : Word) (targets : List Word) (s : State), s.sp + (targets.length + 1) ≤ s.cfg.stackCap →
    ∃ t, execAll ((first :: targets).map .call ++ List.replicate (targets.length + 1) .ret) s = .next t ∧
      t.pc = s.pc + 5 ∧ t.sp = s.sp ∧ (∀ k, k < s.sp → t.stackAt k = s.stackAt k) ∧
      UnchangedBut [.stack, .pc, .steps] s t

/-! ## Strings and the console -/

/-- Rule R171: STORE_STR copies the string and its terminator from the ROM to the RAM and changes no other byte; when the scan meets the
end of the ROM first it raises RomFault, when it meets the top of the RAM first MemoryFault, and RomFault wins a tie; on a
fault nothing is written (the spec's decisions D16 and D19). -/
def Obligations.StoreStrCopiesOrFaults : Prop :=
  ∀ (src dst : Word) (n : Nat) (s : State),
    encode (.storeStr src dst) = 0x0F :: (wordBytes src ++ wordBytes dst) ∧
    ((∀ k, k < n → dst.toNat + k < 65536 ∧ ∃ b, s.rom[src.toNat + k]? = some b ∧ b ≠ 0) →
      (s.rom[src.toNat + n]? = some 0 → dst.toNat + n < 65536 →
        ∃ t, exec (.storeStr src dst) s = .next t ∧
          (∀ k, k ≤ n → s.rom[src.toNat + k]? = some (t.ramAt (dst.toNat + k))) ∧
          (∀ a, a < dst.toNat ∨ dst.toNat + n < a → t.ramAt a = s.ramAt a) ∧
          t.pc = s.pc + 9 ∧ t.steps = s.steps + 1 ∧ UnchangedBut [.ram, .pc, .steps] s t) ∧
      (s.rom.length ≤ src.toNat + n → exec (.storeStr src dst) s = .next (afterFault s .romFault)) ∧
      (src.toNat + n < s.rom.length → 65536 ≤ dst.toNat + n →
        exec (.storeStr src dst) s = .next (afterFault s .memoryFault)))

/-- Rule R172: PRINT_MEM appends the bytes of the RAM string in ascending order and one Flush, with no terminator and no newline; when
no terminator lies between the address and the top of the RAM it raises MemoryFault and emits nothing (the spec's decisions D16 and
D18). -/
def Obligations.PrintMemEmitsString : Prop :=
  ∀ (addr : Word) (s : State),
    encode (.printMem addr) = 0x10 :: wordBytes addr ∧
    (∀ bs : List Byte, (∀ k (h : k < bs.length), s.ramAt (addr.toNat + k) = bs[k] ∧ bs[k] ≠ 0) →
      s.ramAt (addr.toNat + bs.length) = 0 → addr.toNat + bs.length < 65536 →
      exec (.printMem addr) s =
        .next { s with console := s.console ++ bs.map .byte ++ [.flush], pc := s.pc + 5, steps := s.steps + 1 }) ∧
    ((∀ a, addr.toNat ≤ a → a < 65536 → s.ramAt a ≠ 0) → exec (.printMem addr) s = .next (afterFault s .memoryFault))

/-- Rule R173: PRINT_ROM does the same from the ROM; when no terminator lies between the address and the end of the ROM it raises RomFault
and emits nothing (the spec's decisions D16 and D18). -/
def Obligations.PrintRomEmitsString : Prop :=
  ∀ (addr : Word) (s : State),
    encode (.printRom addr) = 0x11 :: wordBytes addr ∧
    (∀ bs : List Byte, (∀ k (h : k < bs.length), s.rom[addr.toNat + k]? = some bs[k] ∧ bs[k] ≠ 0) →
      s.rom[addr.toNat + bs.length]? = some 0 →
      exec (.printRom addr) s =
        .next { s with console := s.console ++ bs.map .byte ++ [.flush], pc := s.pc + 5, steps := s.steps + 1 }) ∧
    ((∀ a, addr.toNat ≤ a → s.rom[a]? ≠ some 0) → exec (.printRom addr) s = .next (afterFault s .romFault))

/-- STORE_STR followed by PRINT_MEM of the destination sends exactly the events that PRINT_ROM of the source sends (rules R171 to
R173). -/
def Obligations.StoredStringPrintsLikeRomString : Prop :=
  ∀ (src dst : Word) (n : Nat) (s : State),
    (∀ k, k < n → ∃ b, s.rom[src.toNat + k]? = some b ∧ b ≠ 0) → s.rom[src.toNat + n]? = some 0 → dst.toNat + n < 65536 →
    ∃ t u v, exec (.storeStr src dst) s = .next t ∧ exec (.printMem dst) t = .next u ∧ exec (.printRom src) s = .next v ∧
      u.console = v.console

/-! ## Drawing -/

/-- Rule R180: SWAP_BUFFERS exchanges the roles of the two surfaces and touches no pixel; two swaps restore the roles. -/
def Obligations.SwapBuffersExchangesRoles : Prop :=
  encode .swapBuffers = [0x14] ∧
  ∀ s : State, exec .swapBuffers s = .next { s with current := 1 - s.current, pc := s.pc + 1, steps := s.steps + 1 } ∧
    1 - s.current ≠ s.current ∧ 1 - (1 - s.current) = s.current

/-- Rule R181: DRAW_PIXEL overwrites the pixel of the back surface at the register values modulo the surface's width and height,
and changes no other pixel of either surface; only a bad register byte faults. -/
def Obligations.DrawPixelWritesOneBackPixel : Prop :=
  ∀ (xr yr : Byte) (color : Word) (s : State),
    encode (.drawPixel xr yr color) = 0x15 :: xr :: yr :: wordBytes color ∧
    (s.cfg.Legal → ∀ a b : Fin 32, xr.toNat = a → yr.toNat = b → ∃ t, exec (.drawPixel xr yr color) s = .next t ∧
      (∀ (k : Fin 2) px py, px < s.cfg.fbWidth → py < s.cfg.fbHeight →
        t.pixel k px py =
          if k ≠ s.current ∧ px = (s.reg a).toNat % s.cfg.fbWidth ∧ py = (s.reg b).toNat % s.cfg.fbHeight then color
          else s.pixel k px py) ∧
      t.pc = s.pc + 7 ∧ t.steps = s.steps + 1 ∧ UnchangedBut [.surfaces, .pc, .steps] s t) ∧
    (32 ≤ xr.toNat ∨ 32 ≤ yr.toNat → exec (.drawPixel xr yr color) s = .next (afterFault s .registerFault))

/-- Rules R184 and R185: a sprite record is a big-endian 16-bit width w and height h and w*h big-endian 32-bit pixels, row-major, with no
padding; decoding succeeds exactly when all 4 + 4*w*h bytes lie in the ROM, and raises RomFault otherwise (the spec's decisions
D12 and D16). -/
def Obligations.SpriteRecordLayout : Prop :=
  ∀ (rom : List Byte) (a : Nat),
    (rom.length < a + 4 → decodeSprite rom a = .error .romFault) ∧
    (∀ (w1 w0 h1 h0 : Byte), rom[a]? = some w1 → rom[a + 1]? = some w0 → rom[a + 2]? = some h1 → rom[a + 3]? = some h0 →
      ∀ w h : Nat, w = 256 * w1.toNat + w0.toNat → h = 256 * h1.toNat + h0.toNat →
      (rom.length < a + 4 + 4 * (w * h) → decodeSprite rom a = .error .romFault) ∧
      (a + 4 + 4 * (w * h) ≤ rom.length → ∃ img, decodeSprite rom a = .ok img ∧ img.w.toNat = w ∧ img.h.toNat = h ∧
        img.px.length = w * h ∧
        ∀ i j, i < w → j < h → ∃ r g b al p, img.px[j * w + i]? = some p ∧
          rom[a + 4 + 4 * (j * w + i)]? = some r ∧ rom[a + 4 + 4 * (j * w + i) + 1]? = some g ∧
          rom[a + 4 + 4 * (j * w + i) + 2]? = some b ∧ rom[a + 4 + 4 * (j * w + i) + 3]? = some al ∧
          p.toNat = 16777216 * r.toNat + 65536 * g.toNat + 256 * b.toNat + al.toNat))

/-- Rules R186 to R188: DRAW_SPRITE of a cached image, or of one that decodes, completes: the image is in the cache afterwards and no other
entry changes; on the back surface each pixel takes the value of the last raster pixel, in row-major order, that lands on it
(each wraps by itself at the edges) and keeps its value when none does; the front surface keeps every pixel. That each write is an
overwrite and that sprites wrap are the spec's decisions D13 and D14. -/
def Obligations.DrawSpriteBlitsImage : Prop :=
  ∀ (xr yr : Byte) (addr : Word) (img : Sprite) (a b : Fin 32) (s : State),
    s.cfg.Legal → xr.toNat = a → yr.toNat = b →
    (s.cached addr = some img ∨ s.cached addr = none ∧ decodeSprite s.rom addr.toNat = .ok img) →
    ∃ t, exec (.drawSprite xr yr addr) s = .next t ∧
      t.cached addr = some img ∧ (∀ other, other ≠ addr → t.cached other = s.cached other) ∧
      (∀ px py, px < s.cfg.fbWidth → py < s.cfg.fbHeight →
        t.pixel s.current px py = s.pixel s.current px py ∧
        (∀ k c, img.px[k]? = some c →
          ((s.reg a).toNat % s.cfg.fbWidth + k % img.w.toNat) % s.cfg.fbWidth = px →
          ((s.reg b).toNat % s.cfg.fbHeight + k / img.w.toNat) % s.cfg.fbHeight = py →
          (∀ l, k < l → l < img.px.length →
            ((s.reg a).toNat % s.cfg.fbWidth + l % img.w.toNat) % s.cfg.fbWidth ≠ px ∨
            ((s.reg b).toNat % s.cfg.fbHeight + l / img.w.toNat) % s.cfg.fbHeight ≠ py) →
          t.pixel (1 - s.current) px py = c) ∧
        ((∀ l, l < img.px.length →
            ((s.reg a).toNat % s.cfg.fbWidth + l % img.w.toNat) % s.cfg.fbWidth ≠ px ∨
            ((s.reg b).toNat % s.cfg.fbHeight + l / img.w.toNat) % s.cfg.fbHeight ≠ py) →
          t.pixel (1 - s.current) px py = s.pixel (1 - s.current) px py)) ∧
      t.pc = s.pc + 7 ∧ t.steps = s.steps + 1 ∧ UnchangedBut [.surfaces, .cache, .pc, .steps] s t

/-- Rule R188: DRAW_SPRITE of a record that does not lie wholly inside the ROM raises RomFault on a miss, with neither the cache nor a pixel
changed; on a hit the ROM is not read, so nothing but a bad register byte faults. -/
def Obligations.DrawSpriteFaultsOnlyOnAMiss : Prop :=
  ∀ (xr yr : Byte) (addr : Word) (s : State),
    encode (.drawSprite xr yr addr) = 0x16 :: xr :: yr :: wordBytes addr ∧
    (xr.toNat < 32 → yr.toNat < 32 →
      (s.cached addr = none → decodeSprite s.rom addr.toNat = .error .romFault →
        exec (.drawSprite xr yr addr) s = .next (afterFault s .romFault)) ∧
      (∀ img, s.cached addr = some img → ∀ rom : List Byte, ∃ t,
        exec (.drawSprite xr yr addr) { s with rom := rom } = .next t ∧ t.steps = s.steps + 1 ∧ t.status = s.status ∧
          t.scache = s.scache)) ∧
    (32 ≤ xr.toNat ∨ 32 ≤ yr.toNat → exec (.drawSprite xr yr addr) s = .next (afterFault s .registerFault))

/-- A completed DRAW_SPRITE leaves its address in the cache for the rest of the run: after any number of further steps, a draw of the same
address decodes nothing, since it completes even with another ROM put in place and leaves the cache as it is (rules R32, R186). -/
def Obligations.SpriteIsDecodedAtMostOnce : Prop :=
  ∀ (xr yr xr' yr' : Byte) (addr : Word) (s t : State),
    exec (.drawSprite xr yr addr) s = .next t → t.steps = s.steps + 1 → xr'.toNat < 32 → yr'.toNat < 32 →
    ∀ (n : Nat) (v : State) (rom : List Byte), Host.Core.run core n t = .next v →
      ∃ u, exec (.drawSprite xr' yr' addr) { v with rom := rom } = .next u ∧ u.scache = v.scache ∧ u.steps = v.steps + 1

/-- The sprite cache is transparent: from two states that differ only in coherent caches, a step gives states that differ only in
their caches (rule R33). -/
def Obligations.SpriteCacheIsTransparent : Prop :=
  ∀ (s : State) (c : Store Sprite), CacheCoherent s.rom s.scache → CacheCoherent s.rom c →
    ∃ t u, step s = .next t ∧ step { s with scache := c } = .next u ∧ u = { t with scache := u.scache }

/-! ## Faults -/

/-- Every register operand of every instruction is checked, whether or not its value would be used: a byte of 32 or more raises
RegisterFault and nothing is written (rules R22, R203; the spec's decisions D4 and D8). -/
def Obligations.BadRegisterByteRaisesRegisterFault : Prop :=
  ∀ (i : Instr) (r : Byte) (s : State), r ∈ registerOperands i → 32 ≤ r.toNat →
    exec i s = .next (afterFault s .registerFault)

/-- Every instruction in every state either completes, with `status` (HALTED for HALT), `fault_cause`, the ROM and the parameters as they
were and the step counted (but for HALT), or raises one fault of its row of the table of rule R207 and changes nothing else (rules R10,
R211). -/
def Obligations.InstructionCompletesOrFaultsCleanly : Prop :=
  ∀ (i : Instr) (s : State), ∃ t, exec i s = .next t ∧
    ((t.status = (if i = .halt then .halted else s.status) ∧ t.faultCause = s.faultCause ∧ t.rom = s.rom ∧ t.cfg = s.cfg ∧
        t.steps = (if i = .halt then s.steps else s.steps + 1)) ∨
      ∃ f, f ∈ mayRaise i ∧ t = afterFault s f)

/-- A step that leaves a running core FAULTED has changed nothing but `status` and `fault_cause`, and answers false (rules R210, R211; the spec's
decision D6). -/
def Obligations.FaultsArePrecise : Prop :=
  ∀ s t : State, s.status = .run → step s = .next t → t.status = .faulted →
    s.cont = false ∧ ∃ f, t = afterFault s f

/-! ## Whole-machine rules -/

/-- Each component is written only by its writers in the table of rule R20. An instruction that completes writes `pc`, the components
that the table lists it for, and `steps`, or for HALT `status` in place of `steps`; one that raises a fault of its row of rule
R207 writes `status` and `fault_cause` alone. -/
def Obligations.ComponentsWrittenOnlyAsListed : Prop :=
  ∀ (i : Instr) (s t : State), exec i s = .next t →
    UnchangedBut (writtenBy i ++ [.pc, if i = .halt then .status else .steps]) s t ∨
      ∃ f, f ∈ mayRaise i ∧ t.status = .faulted ∧ t.faultCause = some f ∧ UnchangedBut [.status, .faultCause] s t

/-- Every step from a state that meets the invariant gives a state that meets it: legal parameters, a ROM of at most 2^32 bytes, `sp`
within [0, STACK_CAP], slots, RAM and surfaces in canonical form and in range, one cache entry per key, each what decoding its
address gives, and `fault_cause` set exactly when `status` is FAULTED (rules R5, R26, R32, R33, R35, R60, R61). -/
def Obligations.StepKeepsInvariant : Prop :=
  ∀ s t : State, s.Inv → step s = .next t → t.Inv

/-- The reset state meets the invariant for all legal parameters, and so does the state after any program of at most 2^32 bytes is
loaded (rules R39, R60, R230). -/
def Obligations.ResetMeetsInvariant : Prop :=
  ∀ (c : Config) (rom : List Byte), c.Legal → rom.length ≤ 4294967296 →
    (State.resetWith c).Inv ∧ ({ State.resetWith c with rom := rom } : State).Inv

/-- Rule R39: after reset, whatever the parameters, every register, slot, RAM byte and pixel is zero, `pc`, `sp`, `current` and
`steps` are zero, the cache and the console are empty, `status` is RUN and `fault_cause` is 0 (the last two are the spec's decisions
D3 and D7, the parameters of `State.reset` log entry 2, on whose values nothing here rests). -/
def Obligations.ResetValues : Prop :=
  (∃ c, State.reset = State.resetWith c) ∧
  ∀ c : Config, (∀ i, (State.resetWith c).reg i = 0) ∧ (State.resetWith c).pc = 0 ∧
    (∀ k, (State.resetWith c).stackAt k = 0) ∧ (State.resetWith c).sp = 0 ∧
    (∀ a, (State.resetWith c).ramAt a = 0) ∧ (∀ (k : Fin 2) px py, (State.resetWith c).pixel k px py = 0) ∧
    (State.resetWith c).current = 0 ∧ (∀ a, (State.resetWith c).cached a = none) ∧
    (State.resetWith c).steps = 0 ∧ (State.resetWith c).console = [] ∧
    (State.resetWith c).status = .run ∧ faultCode (State.resetWith c).faultCause = 0

/-- No run of any length changes the ROM or the parameters (rules R60, R233). -/
def Obligations.RomAndParametersNeverChange : Prop :=
  ∀ (n : Nat) (s t : State), Host.Core.run core n s = .next t → t.rom = s.rom ∧ t.cfg = s.cfg

/-- No step writes a pixel of the surface that is presented before it: the arbiter never grants a write to the front surface
(rule R189). -/
def Obligations.FrontSurfaceIsNeverDrawn : Prop :=
  ∀ s t : State, step s = .next t → ∀ px py, t.pixel s.current px py = s.pixel s.current px py

/-- A sprite-cache entry is never replaced or removed by a step (rules R32, R186). -/
def Obligations.CacheEntriesNeverChange : Prop :=
  ∀ (s t : State) (a : Word) (img : Sprite), step s = .next t → s.cached a = some img → t.cached a = some img

/-- The core only appends to the console stream (rule R36, the spec's decision D18). -/
def Obligations.ConsoleOnlyGrows : Prop :=
  ∀ s t : State, step s = .next t → ∃ es, t.console = s.console ++ es

/-- The step counter advances by one, modulo 2^32, exactly in the steps that answer true (rule R34, the spec's decision D17). -/
def Obligations.StepCounterCountsContinuingSteps : Prop :=
  ∀ s t : State, step s = .next t → t.steps = if s.cont then s.steps + 1 else s.steps

/-- A step answers false exactly for a core that had stopped, for HALT and for a fault (rules R120, R127). -/
def Obligations.ContIsFalseExactlyAtAStop : Prop :=
  ∀ s t : State, step s = .next t → (s.cont = false ↔ s.Stopped ∨ t.status = .halted ∨ t.status = .faulted)

/-- Every step of every state terminates with a next state: no step is refused and no step stops the model (rule R252). -/
def Obligations.EveryStepHasANextState : Prop :=
  ∀ s : State, ∃ t, step s = .next t

/-- Two memories in canonical form that read the same at every address are the same data (the model's representation of the RAM of
rule R61, log entry 3). -/
def Obligations.CanonicalMemoriesAreEqualData : Prop :=
  ∀ m₁ m₂ : Memory, Memory.wf m₁ = true → Memory.wf m₂ = true → (∀ a, readCell m₁ a = readCell m₂ a) → m₁ = m₂

/-! ## The host's transactions -/

/-- Rule R239: Reset is allowed at any time, puts every piece of state at its reset value with an empty ROM, keeps the parameters, and opens
the one LoadRom of the new run (the spec's decision D21; the bookkeeping is the model's, log entry 4). -/
def Obligations.ResetStartsANewRun : Prop :=
  ∀ p : Session, transact .reset p = .next ({ core := State.resetWith p.core.cfg, taken := 0, loadOpen := true }, .done) ∧
    (State.resetWith p.core.cfg).rom = [] ∧
    transact .step { core := State.resetWith p.core.cfg, taken := 0, loadOpen := true } =
      .next ({ core := State.resetWith p.core.cfg, taken := 0, loadOpen := false }, .cont false)

/-- LoadRom is accepted once per run, before the first Step, for at most 2^32 bytes, and changes the ROM only: it closes the load window, as
a Step does, no transaction but Reset opens the window again, and while it is closed LoadRom is refused (rule R240, U20; the
window and the refusals are the model's, log entry 4). -/
def Obligations.LoadRomOncePerRun : Prop :=
  ∀ (p : Session) (bytes : List Byte),
    (p.loadOpen = true → bytes.length ≤ 4294967296 → ∃ q, transact (.loadRom bytes) p = .next (q, .done) ∧
      q.core = { p.core with rom := bytes } ∧ q.taken = p.taken ∧ q.loadOpen = false) ∧
    (4294967296 < bytes.length → p.loadOpen = true → transact (.loadRom bytes) p = .refused .romTooLong) ∧
    (∀ q r, transact .step p = .next (q, r) → q.loadOpen = false) ∧
    (∀ x q r, x ≠ .reset → transact x p = .next (q, r) → p.loadOpen = false → q.loadOpen = false) ∧
    (p.loadOpen = false → transact (.loadRom bytes) p = .refused .loadRomOutOfOrder)

/-- The Step transaction makes one step of the core and answers its `cont` (rule R241). -/
def Obligations.StepTransactionAnswersCont : Prop :=
  ∀ (p : Session) (t : State), step p.core = .next t →
    ∃ q, transact .step p = .next (q, .cont p.core.cont) ∧ q.core = t ∧ q.taken = p.taken

/-- ConsoleTake hands over the events appended since the last take: taking, running any number of steps, and taking again hands over
exactly what those steps appended, in order, and a take right after a take hands over nothing (rule R244, the spec's decision D18). -/
def Obligations.ConsoleTakeHandsNewEvents : Prop :=
  ∀ (p : Session) (n : Nat) (t : State), Host.Core.run core n p.core = .next t →
    ∃ q es, transact .consoleTake p = .next (q, .events (p.core.console.drop p.taken)) ∧ q.core = p.core ∧
      transact .consoleTake q = .next (q, .events []) ∧
      t.console = p.core.console ++ es ∧
      ∃ r, transact .consoleTake { q with core := t } = .next (r, .events es)

/-- PresentIndex, ReadPixel of either surface and Status answer the presented index, the pixel and the three status values, and change
nothing (rules R242, R243, R245; the spec's decisions D3, D7 and D22). -/
def Obligations.HostReadsChangeNothing : Prop :=
  ∀ p : Session,
    transact .presentIndex p = .next (p, .surface p.core.current) ∧
    (∀ (k : Fin 2) px py, px < p.core.cfg.fbWidth → py < p.core.cfg.fbHeight →
      transact (.readPixel k px py) p = .next (p, .pixel (p.core.pixel k px py))) ∧
    ∃ code, transact .status p = .next (p, .status p.core.status code p.core.pc) ∧ (code = 0 ↔ p.core.faultCause = none) ∧
      (p.core.faultCause = some .romFault ↔ code = 1) ∧ (p.core.faultCause = some .memoryFault ↔ code = 2) ∧
      (p.core.faultCause = some .registerFault ↔ code = 3) ∧ (p.core.faultCause = some .stackFault ↔ code = 4) ∧
      (p.core.faultCause = some .arithmeticFault ↔ code = 5)
end

