-- ==== Sys2Proof/Laws/Decode.lean ====
section
/-! SUPPORT. The laws of the encoding: big-endian assembly and disassembly undo each other, and what each operand format reads. -/

namespace Sys2Proof

/-! ## Big-endian bytes -/

theorem be16_toNat (b0 b1 : Byte) : (be16 b0 b1).toNat = 256 * b0.toNat + b1.toNat := by
  have h1 := b1.isLt
  simp only [be16, BitVec.toNat_append]
  rw [← Nat.shiftLeft_add_eq_or_of_lt h1, Nat.shiftLeft_eq]
  omega

theorem be32_toNat (b0 b1 b2 b3 : Byte) :
    (be32 b0 b1 b2 b3).toNat = 16777216 * b0.toNat + 65536 * b1.toNat + 256 * b2.toNat + b3.toNat := by
  have h1 := b1.isLt
  have h2 := b2.isLt
  have h3 := b3.isLt
  simp only [be32, BitVec.toNat_append]
  rw [← Nat.shiftLeft_add_eq_or_of_lt h1, ← Nat.shiftLeft_add_eq_or_of_lt h2, ← Nat.shiftLeft_add_eq_or_of_lt h3,
    Nat.shiftLeft_eq, Nat.shiftLeft_eq, Nat.shiftLeft_eq]
  omega

/-- Byte `k` of the big-endian storage, as a digit of the value in base 256 (rule R63). -/
theorem byteOf_toNat (v : Word) (k : Nat) : (byteOf v k).toNat = v.toNat / 2 ^ (8 * (3 - k)) % 256 := by
  simp [byteOf, Nat.shiftRight_eq_div_pow]

/-- Assembling the four stored bytes of a value gives the value (rule R68). -/
@[simp] theorem be32_byteOf (v : Word) : be32 (byteOf v 0) (byteOf v 1) (byteOf v 2) (byteOf v 3) = v := by
  have := v.isLt
  apply BitVec.eq_of_toNat_eq
  simp only [be32_toNat, byteOf_toNat]
  omega

/-- The stored bytes of an assembled value are the bytes it was assembled from. -/
@[simp] theorem wordBytes_be32 (b0 b1 b2 b3 : Byte) : wordBytes (be32 b0 b1 b2 b3) = [b0, b1, b2, b3] := by
  have h0 := b0.isLt
  have h1 := b1.isLt
  have h2 := b2.isLt
  have h3 := b3.isLt
  have h : ∀ k (b : Byte), (be32 b0 b1 b2 b3).toNat / 2 ^ (8 * (3 - k)) % 256 = b.toNat → byteOf (be32 b0 b1 b2 b3) k = b :=
    fun k b e => BitVec.eq_of_toNat_eq (by rw [byteOf_toNat]; exact e)
  simp only [be32_toNat] at h
  simp only [wordBytes]
  rw [h 0 b0 (by omega), h 1 b1 (by omega), h 2 b2 (by omega), h 3 b3 (by omega)]

@[simp] theorem wordBytes_length (v : Word) : (wordBytes v).length = 4 := rfl

/-! ## The operand formats read back what the encoder writes -/

@[simp] theorem operandsF1_bytes (c : Byte → Word → Instr) (r : Byte) (v : Word) (bs : List Byte) :
    operandsF1 c (r :: (wordBytes v ++ bs)) = .instr (c r v) bs := by
  simp [wordBytes, operandsF1]

@[simp] theorem operandsF2_bytes (c : Byte → Byte → Instr) (r1 r2 : Byte) (bs : List Byte) :
    operandsF2 c (r1 :: r2 :: bs) = .instr (c r1 r2) bs := rfl

@[simp] theorem operandsF3_bytes (c : Word → Instr) (v : Word) (bs : List Byte) :
    operandsF3 c (wordBytes v ++ bs) = .instr (c v) bs := by
  simp [wordBytes, operandsF3]

@[simp] theorem operandsF4_bytes (c : Byte → Byte → Word → Instr) (r1 r2 : Byte) (v : Word) (bs : List Byte) :
    operandsF4 c (r1 :: r2 :: (wordBytes v ++ bs)) = .instr (c r1 r2 v) bs := by
  simp [wordBytes, operandsF4]

@[simp] theorem operandsF5_bytes (c : Word → Word → Instr) (a b : Word) (bs : List Byte) :
    operandsF5 c (wordBytes a ++ (wordBytes b ++ bs)) = .instr (c a b) bs := by
  simp [wordBytes, operandsF5]

/-! ## What each operand format consumes, and nothing but it -/

theorem operandsF1_ok {c : Byte → Word → Instr} {bs rest : List Byte} {i : Instr} (h : operandsF1 c bs = .instr i rest) :
    ∃ r v, i = c r v ∧ bs = r :: (wordBytes v ++ rest) := by
  unfold operandsF1 at h
  split at h
  · cases h
    exact ⟨_, _, rfl, by simp⟩
  · cases h

theorem operandsF2_ok {c : Byte → Byte → Instr} {bs rest : List Byte} {i : Instr} (h : operandsF2 c bs = .instr i rest) :
    ∃ r1 r2, i = c r1 r2 ∧ bs = r1 :: r2 :: rest := by
  unfold operandsF2 at h
  split at h
  · cases h
    exact ⟨_, _, rfl, rfl⟩
  · cases h

theorem operandsF3_ok {c : Word → Instr} {bs rest : List Byte} {i : Instr} (h : operandsF3 c bs = .instr i rest) :
    ∃ v, i = c v ∧ bs = wordBytes v ++ rest := by
  unfold operandsF3 at h
  split at h
  · cases h
    exact ⟨_, rfl, by simp⟩
  · cases h

theorem operandsF4_ok {c : Byte → Byte → Word → Instr} {bs rest : List Byte} {i : Instr}
    (h : operandsF4 c bs = .instr i rest) : ∃ r1 r2 v, i = c r1 r2 v ∧ bs = r1 :: r2 :: (wordBytes v ++ rest) := by
  unfold operandsF4 at h
  split at h
  · cases h
    exact ⟨_, _, _, rfl, by simp⟩
  · cases h

theorem operandsF5_ok {c : Word → Word → Instr} {bs rest : List Byte} {i : Instr} (h : operandsF5 c bs = .instr i rest) :
    ∃ a b, i = c a b ∧ bs = wordBytes a ++ (wordBytes b ++ rest) := by
  unfold operandsF5 at h
  split at h
  · cases h
    exact ⟨_, _, rfl, by simp⟩
  · cases h

/-! ## The opcode map -/

/-- An opcode byte outside the assigned values selects NOP (rules R94, R96). -/
theorem decodeOpcode_unrecognised {op : Byte} (h : UnrecognisedOpcode op) (bs : List Byte) :
    decodeOpcode op bs = .instr (.nop op) bs := by
  obtain ⟨h1, h2⟩ := h
  unfold decodeOpcode
  split <;> first | rfl | (exfalso; omega)

/-- An opcode byte always selects an instruction; only its operands can be missing (rule R95). -/
theorem decodeOpcode_ne_noOpcode (op : Byte) (bs : List Byte) : decodeOpcode op bs ≠ .noOpcode := by
  unfold decodeOpcode operandsF0 operandsF1 operandsF2 operandsF3 operandsF4 operandsF5
  split <;> first
    | (intro h; cases h)
    | (split <;> intro h <;> cases h)

theorem opcodeLength_unrecognised {op : Byte} (h : UnrecognisedOpcode op) : opcodeLength op = 1 := by
  obtain ⟨h1, h2⟩ := h
  unfold opcodeLength
  split <;> first | rfl | (exfalso; omega)

/-- Every opcode byte is one of the 25 assigned values or unrecognised (rule R94). -/
theorem opcode_cases (op : Byte) : op.toNat ≤ 0x17 ∨ UnrecognisedOpcode op ∨ op.toNat = 0xFF := by
  have := op.isLt
  simp only [UnrecognisedOpcode]
  omega

end Sys2Proof
end

