-- ==== Sys2Proof/Laws/State.lean ====
section
/-! SUPPORT. One lemma per field and update of the state, so that no later proof unfolds a record update. -/

namespace Sys2Proof.Machine

variable (s : State)

/-! ## `setReg` writes `regs` and nothing else -/

@[simp] theorem State.setReg_cfg (i : Fin 32) (v : Word) : (s.setReg i v).cfg = s.cfg := rfl
@[simp] theorem State.setReg_rom (i : Fin 32) (v : Word) : (s.setReg i v).rom = s.rom := rfl
@[simp] theorem State.setReg_regs (i : Fin 32) (v : Word) : (s.setReg i v).regs = s.regs.set i.val v := rfl
@[simp] theorem State.setReg_pc (i : Fin 32) (v : Word) : (s.setReg i v).pc = s.pc := rfl
@[simp] theorem State.setReg_stack (i : Fin 32) (v : Word) : (s.setReg i v).stack = s.stack := rfl
@[simp] theorem State.setReg_sp (i : Fin 32) (v : Word) : (s.setReg i v).sp = s.sp := rfl
@[simp] theorem State.setReg_ram (i : Fin 32) (v : Word) : (s.setReg i v).ram = s.ram := rfl
@[simp] theorem State.setReg_fb (i : Fin 32) (v : Word) : (s.setReg i v).fb = s.fb := rfl
@[simp] theorem State.setReg_current (i : Fin 32) (v : Word) : (s.setReg i v).current = s.current := rfl
@[simp] theorem State.setReg_scache (i : Fin 32) (v : Word) : (s.setReg i v).scache = s.scache := rfl
@[simp] theorem State.setReg_console (i : Fin 32) (v : Word) : (s.setReg i v).console = s.console := rfl
@[simp] theorem State.setReg_steps (i : Fin 32) (v : Word) : (s.setReg i v).steps = s.steps := rfl
@[simp] theorem State.setReg_status (i : Fin 32) (v : Word) : (s.setReg i v).status = s.status := rfl
@[simp] theorem State.setReg_faultCause (i : Fin 32) (v : Word) : (s.setReg i v).faultCause = s.faultCause := rfl

/-! ## `fallThrough` writes `pc` and nothing else -/

@[simp] theorem State.fallThrough_cfg (len : Nat) : (s.fallThrough len).cfg = s.cfg := rfl
@[simp] theorem State.fallThrough_rom (len : Nat) : (s.fallThrough len).rom = s.rom := rfl
@[simp] theorem State.fallThrough_regs (len : Nat) : (s.fallThrough len).regs = s.regs := rfl
@[simp] theorem State.fallThrough_pc (len : Nat) : (s.fallThrough len).pc = s.pc + BitVec.ofNat 32 len := rfl
@[simp] theorem State.fallThrough_stack (len : Nat) : (s.fallThrough len).stack = s.stack := rfl
@[simp] theorem State.fallThrough_sp (len : Nat) : (s.fallThrough len).sp = s.sp := rfl
@[simp] theorem State.fallThrough_ram (len : Nat) : (s.fallThrough len).ram = s.ram := rfl
@[simp] theorem State.fallThrough_fb (len : Nat) : (s.fallThrough len).fb = s.fb := rfl
@[simp] theorem State.fallThrough_current (len : Nat) : (s.fallThrough len).current = s.current := rfl
@[simp] theorem State.fallThrough_scache (len : Nat) : (s.fallThrough len).scache = s.scache := rfl
@[simp] theorem State.fallThrough_console (len : Nat) : (s.fallThrough len).console = s.console := rfl
@[simp] theorem State.fallThrough_steps (len : Nat) : (s.fallThrough len).steps = s.steps := rfl
@[simp] theorem State.fallThrough_status (len : Nat) : (s.fallThrough len).status = s.status := rfl
@[simp] theorem State.fallThrough_faultCause (len : Nat) : (s.fallThrough len).faultCause = s.faultCause := rfl

/-! ## `jumpTo` writes `pc` and nothing else -/

@[simp] theorem State.jumpTo_cfg (a : Word) : (s.jumpTo a).cfg = s.cfg := rfl
@[simp] theorem State.jumpTo_rom (a : Word) : (s.jumpTo a).rom = s.rom := rfl
@[simp] theorem State.jumpTo_regs (a : Word) : (s.jumpTo a).regs = s.regs := rfl
@[simp] theorem State.jumpTo_pc (a : Word) : (s.jumpTo a).pc = a := rfl
@[simp] theorem State.jumpTo_stack (a : Word) : (s.jumpTo a).stack = s.stack := rfl
@[simp] theorem State.jumpTo_sp (a : Word) : (s.jumpTo a).sp = s.sp := rfl
@[simp] theorem State.jumpTo_ram (a : Word) : (s.jumpTo a).ram = s.ram := rfl
@[simp] theorem State.jumpTo_fb (a : Word) : (s.jumpTo a).fb = s.fb := rfl
@[simp] theorem State.jumpTo_current (a : Word) : (s.jumpTo a).current = s.current := rfl
@[simp] theorem State.jumpTo_scache (a : Word) : (s.jumpTo a).scache = s.scache := rfl
@[simp] theorem State.jumpTo_console (a : Word) : (s.jumpTo a).console = s.console := rfl
@[simp] theorem State.jumpTo_steps (a : Word) : (s.jumpTo a).steps = s.steps := rfl
@[simp] theorem State.jumpTo_status (a : Word) : (s.jumpTo a).status = s.status := rfl
@[simp] theorem State.jumpTo_faultCause (a : Word) : (s.jumpTo a).faultCause = s.faultCause := rfl

/-! ## `setRam` writes `ram` and nothing else -/

@[simp] theorem State.setRam_cfg (a : Nat) (b : Byte) : (s.setRam a b).cfg = s.cfg := rfl
@[simp] theorem State.setRam_rom (a : Nat) (b : Byte) : (s.setRam a b).rom = s.rom := rfl
@[simp] theorem State.setRam_regs (a : Nat) (b : Byte) : (s.setRam a b).regs = s.regs := rfl
@[simp] theorem State.setRam_pc (a : Nat) (b : Byte) : (s.setRam a b).pc = s.pc := rfl
@[simp] theorem State.setRam_stack (a : Nat) (b : Byte) : (s.setRam a b).stack = s.stack := rfl
@[simp] theorem State.setRam_sp (a : Nat) (b : Byte) : (s.setRam a b).sp = s.sp := rfl
@[simp] theorem State.setRam_ram (a : Nat) (b : Byte) : (s.setRam a b).ram = writeCell s.ram a b := rfl
@[simp] theorem State.setRam_fb (a : Nat) (b : Byte) : (s.setRam a b).fb = s.fb := rfl
@[simp] theorem State.setRam_current (a : Nat) (b : Byte) : (s.setRam a b).current = s.current := rfl
@[simp] theorem State.setRam_scache (a : Nat) (b : Byte) : (s.setRam a b).scache = s.scache := rfl
@[simp] theorem State.setRam_console (a : Nat) (b : Byte) : (s.setRam a b).console = s.console := rfl
@[simp] theorem State.setRam_steps (a : Nat) (b : Byte) : (s.setRam a b).steps = s.steps := rfl
@[simp] theorem State.setRam_status (a : Nat) (b : Byte) : (s.setRam a b).status = s.status := rfl
@[simp] theorem State.setRam_faultCause (a : Nat) (b : Byte) : (s.setRam a b).faultCause = s.faultCause := rfl

/-! ## `plotBack` writes `fb` and nothing else -/

@[simp] theorem State.plotBack_cfg (px py : Nat) (c : Word) : (s.plotBack px py c).cfg = s.cfg := rfl
@[simp] theorem State.plotBack_rom (px py : Nat) (c : Word) : (s.plotBack px py c).rom = s.rom := rfl
@[simp] theorem State.plotBack_regs (px py : Nat) (c : Word) : (s.plotBack px py c).regs = s.regs := rfl
@[simp] theorem State.plotBack_pc (px py : Nat) (c : Word) : (s.plotBack px py c).pc = s.pc := rfl
@[simp] theorem State.plotBack_stack (px py : Nat) (c : Word) : (s.plotBack px py c).stack = s.stack := rfl
@[simp] theorem State.plotBack_sp (px py : Nat) (c : Word) : (s.plotBack px py c).sp = s.sp := rfl
@[simp] theorem State.plotBack_ram (px py : Nat) (c : Word) : (s.plotBack px py c).ram = s.ram := rfl
@[simp] theorem State.plotBack_fb (px py : Nat) (c : Word) : (s.plotBack px py c).fb = s.fb.set s.back.val (writeCell s.fb[s.back.val] (s.pixelIndex px py) c) := rfl
@[simp] theorem State.plotBack_current (px py : Nat) (c : Word) : (s.plotBack px py c).current = s.current := rfl
@[simp] theorem State.plotBack_scache (px py : Nat) (c : Word) : (s.plotBack px py c).scache = s.scache := rfl
@[simp] theorem State.plotBack_console (px py : Nat) (c : Word) : (s.plotBack px py c).console = s.console := rfl
@[simp] theorem State.plotBack_steps (px py : Nat) (c : Word) : (s.plotBack px py c).steps = s.steps := rfl
@[simp] theorem State.plotBack_status (px py : Nat) (c : Word) : (s.plotBack px py c).status = s.status := rfl
@[simp] theorem State.plotBack_faultCause (px py : Nat) (c : Word) : (s.plotBack px py c).faultCause = s.faultCause := rfl

/-! ## `cacheSprite` writes `scache` and nothing else -/

@[simp] theorem State.cacheSprite_cfg (a : Word) (img : Sprite) : (s.cacheSprite a img).cfg = s.cfg := rfl
@[simp] theorem State.cacheSprite_rom (a : Word) (img : Sprite) : (s.cacheSprite a img).rom = s.rom := rfl
@[simp] theorem State.cacheSprite_regs (a : Word) (img : Sprite) : (s.cacheSprite a img).regs = s.regs := rfl
@[simp] theorem State.cacheSprite_pc (a : Word) (img : Sprite) : (s.cacheSprite a img).pc = s.pc := rfl
@[simp] theorem State.cacheSprite_stack (a : Word) (img : Sprite) : (s.cacheSprite a img).stack = s.stack := rfl
@[simp] theorem State.cacheSprite_sp (a : Word) (img : Sprite) : (s.cacheSprite a img).sp = s.sp := rfl
@[simp] theorem State.cacheSprite_ram (a : Word) (img : Sprite) : (s.cacheSprite a img).ram = s.ram := rfl
@[simp] theorem State.cacheSprite_fb (a : Word) (img : Sprite) : (s.cacheSprite a img).fb = s.fb := rfl
@[simp] theorem State.cacheSprite_current (a : Word) (img : Sprite) : (s.cacheSprite a img).current = s.current := rfl
@[simp] theorem State.cacheSprite_scache (a : Word) (img : Sprite) : (s.cacheSprite a img).scache = insertAt a.toNat img s.scache := rfl
@[simp] theorem State.cacheSprite_console (a : Word) (img : Sprite) : (s.cacheSprite a img).console = s.console := rfl
@[simp] theorem State.cacheSprite_steps (a : Word) (img : Sprite) : (s.cacheSprite a img).steps = s.steps := rfl
@[simp] theorem State.cacheSprite_status (a : Word) (img : Sprite) : (s.cacheSprite a img).status = s.status := rfl
@[simp] theorem State.cacheSprite_faultCause (a : Word) (img : Sprite) : (s.cacheSprite a img).faultCause = s.faultCause := rfl

/-! ## `print` writes `console` and nothing else -/

@[simp] theorem State.print_cfg (bs : List Byte) : (s.print bs).cfg = s.cfg := rfl
@[simp] theorem State.print_rom (bs : List Byte) : (s.print bs).rom = s.rom := rfl
@[simp] theorem State.print_regs (bs : List Byte) : (s.print bs).regs = s.regs := rfl
@[simp] theorem State.print_pc (bs : List Byte) : (s.print bs).pc = s.pc := rfl
@[simp] theorem State.print_stack (bs : List Byte) : (s.print bs).stack = s.stack := rfl
@[simp] theorem State.print_sp (bs : List Byte) : (s.print bs).sp = s.sp := rfl
@[simp] theorem State.print_ram (bs : List Byte) : (s.print bs).ram = s.ram := rfl
@[simp] theorem State.print_fb (bs : List Byte) : (s.print bs).fb = s.fb := rfl
@[simp] theorem State.print_current (bs : List Byte) : (s.print bs).current = s.current := rfl
@[simp] theorem State.print_scache (bs : List Byte) : (s.print bs).scache = s.scache := rfl
@[simp] theorem State.print_console (bs : List Byte) : (s.print bs).console = s.console ++ (bs.map .byte ++ [.flush]) := rfl
@[simp] theorem State.print_steps (bs : List Byte) : (s.print bs).steps = s.steps := rfl
@[simp] theorem State.print_status (bs : List Byte) : (s.print bs).status = s.status := rfl
@[simp] theorem State.print_faultCause (bs : List Byte) : (s.print bs).faultCause = s.faultCause := rfl

/-! ## `countStep` writes `steps` and nothing else -/

@[simp] theorem State.countStep_cfg : (s.countStep).cfg = s.cfg := rfl
@[simp] theorem State.countStep_rom : (s.countStep).rom = s.rom := rfl
@[simp] theorem State.countStep_regs : (s.countStep).regs = s.regs := rfl
@[simp] theorem State.countStep_pc : (s.countStep).pc = s.pc := rfl
@[simp] theorem State.countStep_stack : (s.countStep).stack = s.stack := rfl
@[simp] theorem State.countStep_sp : (s.countStep).sp = s.sp := rfl
@[simp] theorem State.countStep_ram : (s.countStep).ram = s.ram := rfl
@[simp] theorem State.countStep_fb : (s.countStep).fb = s.fb := rfl
@[simp] theorem State.countStep_current : (s.countStep).current = s.current := rfl
@[simp] theorem State.countStep_scache : (s.countStep).scache = s.scache := rfl
@[simp] theorem State.countStep_console : (s.countStep).console = s.console := rfl
@[simp] theorem State.countStep_steps : (s.countStep).steps = s.steps + 1 := rfl
@[simp] theorem State.countStep_status : (s.countStep).status = s.status := rfl
@[simp] theorem State.countStep_faultCause : (s.countStep).faultCause = s.faultCause := rfl

/-! ## `raise` writes `status` and `faultCause` and nothing else (rule R211) -/

@[simp] theorem State.raise_cfg (f : CoreFault) : (s.raise f).cfg = s.cfg := rfl
@[simp] theorem State.raise_rom (f : CoreFault) : (s.raise f).rom = s.rom := rfl
@[simp] theorem State.raise_regs (f : CoreFault) : (s.raise f).regs = s.regs := rfl
@[simp] theorem State.raise_pc (f : CoreFault) : (s.raise f).pc = s.pc := rfl
@[simp] theorem State.raise_stack (f : CoreFault) : (s.raise f).stack = s.stack := rfl
@[simp] theorem State.raise_sp (f : CoreFault) : (s.raise f).sp = s.sp := rfl
@[simp] theorem State.raise_ram (f : CoreFault) : (s.raise f).ram = s.ram := rfl
@[simp] theorem State.raise_fb (f : CoreFault) : (s.raise f).fb = s.fb := rfl
@[simp] theorem State.raise_current (f : CoreFault) : (s.raise f).current = s.current := rfl
@[simp] theorem State.raise_scache (f : CoreFault) : (s.raise f).scache = s.scache := rfl
@[simp] theorem State.raise_console (f : CoreFault) : (s.raise f).console = s.console := rfl
@[simp] theorem State.raise_steps (f : CoreFault) : (s.raise f).steps = s.steps := rfl
@[simp] theorem State.raise_status (f : CoreFault) : (s.raise f).status = .faulted := rfl
@[simp] theorem State.raise_faultCause (f : CoreFault) : (s.raise f).faultCause = some f := rfl

/-! ## The recursive updates: `setRamBytes` writes `ram`, `blitFrom` and `blit` write `fb`, and none of them anything else -/

theorem State.setRamBytes_eq (a : Nat) (bs : List Byte) :
    s.setRamBytes a bs = { s with ram := (s.setRamBytes a bs).ram } := by
  induction bs generalizing s a with
  | nil => rfl
  | cons b bs ih => exact ih (s.setRam a b) (a + 1)

theorem State.blitFrom_eq (x y w k : Nat) (ps : List Word) :
    State.blitFrom x y w k ps s = { s with fb := (State.blitFrom x y w k ps s).fb } := by
  induction ps generalizing s k with
  | nil => rfl
  | cons p ps ih => exact ih (s.plotBack _ _ p) (k + 1)

theorem State.blit_eq (x y : Nat) (img : Sprite) : s.blit x y img = { s with fb := (s.blit x y img).fb } :=
  s.blitFrom_eq x y _ 0 img.px

@[simp] theorem State.setRamBytes_cfg (a : Nat) (bs : List Byte) : (s.setRamBytes a bs).cfg = s.cfg := by
  rw [s.setRamBytes_eq]
@[simp] theorem State.setRamBytes_rom (a : Nat) (bs : List Byte) : (s.setRamBytes a bs).rom = s.rom := by
  rw [s.setRamBytes_eq]
@[simp] theorem State.setRamBytes_regs (a : Nat) (bs : List Byte) : (s.setRamBytes a bs).regs = s.regs := by
  rw [s.setRamBytes_eq]
@[simp] theorem State.setRamBytes_pc (a : Nat) (bs : List Byte) : (s.setRamBytes a bs).pc = s.pc := by
  rw [s.setRamBytes_eq]
@[simp] theorem State.setRamBytes_stack (a : Nat) (bs : List Byte) : (s.setRamBytes a bs).stack = s.stack := by
  rw [s.setRamBytes_eq]
@[simp] theorem State.setRamBytes_sp (a : Nat) (bs : List Byte) : (s.setRamBytes a bs).sp = s.sp := by
  rw [s.setRamBytes_eq]
@[simp] theorem State.setRamBytes_fb (a : Nat) (bs : List Byte) : (s.setRamBytes a bs).fb = s.fb := by
  rw [s.setRamBytes_eq]
@[simp] theorem State.setRamBytes_current (a : Nat) (bs : List Byte) : (s.setRamBytes a bs).current = s.current := by
  rw [s.setRamBytes_eq]
@[simp] theorem State.setRamBytes_scache (a : Nat) (bs : List Byte) : (s.setRamBytes a bs).scache = s.scache := by
  rw [s.setRamBytes_eq]
@[simp] theorem State.setRamBytes_console (a : Nat) (bs : List Byte) : (s.setRamBytes a bs).console = s.console := by
  rw [s.setRamBytes_eq]
@[simp] theorem State.setRamBytes_steps (a : Nat) (bs : List Byte) : (s.setRamBytes a bs).steps = s.steps := by
  rw [s.setRamBytes_eq]
@[simp] theorem State.setRamBytes_status (a : Nat) (bs : List Byte) : (s.setRamBytes a bs).status = s.status := by
  rw [s.setRamBytes_eq]
@[simp] theorem State.setRamBytes_faultCause (a : Nat) (bs : List Byte) : (s.setRamBytes a bs).faultCause = s.faultCause := by
  rw [s.setRamBytes_eq]

@[simp] theorem State.blit_cfg (x y : Nat) (img : Sprite) : (s.blit x y img).cfg = s.cfg := by
  rw [s.blit_eq]
@[simp] theorem State.blit_rom (x y : Nat) (img : Sprite) : (s.blit x y img).rom = s.rom := by
  rw [s.blit_eq]
@[simp] theorem State.blit_regs (x y : Nat) (img : Sprite) : (s.blit x y img).regs = s.regs := by
  rw [s.blit_eq]
@[simp] theorem State.blit_pc (x y : Nat) (img : Sprite) : (s.blit x y img).pc = s.pc := by
  rw [s.blit_eq]
@[simp] theorem State.blit_stack (x y : Nat) (img : Sprite) : (s.blit x y img).stack = s.stack := by
  rw [s.blit_eq]
@[simp] theorem State.blit_sp (x y : Nat) (img : Sprite) : (s.blit x y img).sp = s.sp := by
  rw [s.blit_eq]
@[simp] theorem State.blit_ram (x y : Nat) (img : Sprite) : (s.blit x y img).ram = s.ram := by
  rw [s.blit_eq]
@[simp] theorem State.blit_current (x y : Nat) (img : Sprite) : (s.blit x y img).current = s.current := by
  rw [s.blit_eq]
@[simp] theorem State.blit_scache (x y : Nat) (img : Sprite) : (s.blit x y img).scache = s.scache := by
  rw [s.blit_eq]
@[simp] theorem State.blit_console (x y : Nat) (img : Sprite) : (s.blit x y img).console = s.console := by
  rw [s.blit_eq]
@[simp] theorem State.blit_steps (x y : Nat) (img : Sprite) : (s.blit x y img).steps = s.steps := by
  rw [s.blit_eq]
@[simp] theorem State.blit_status (x y : Nat) (img : Sprite) : (s.blit x y img).status = s.status := by
  rw [s.blit_eq]
@[simp] theorem State.blit_faultCause (x y : Nat) (img : Sprite) : (s.blit x y img).faultCause = s.faultCause := by
  rw [s.blit_eq]

end Sys2Proof.Machine
end

