-- ==== Sys2Proof/Laws/Store.lean ====
section
/-! SUPPORT. The laws of finite maps in sorted-list form: what a read gives after a write, that every write keeps the canonical
form, and that canonical maps with equal contents are equal lists. -/

namespace Sys2Proof.Machine

variable {α : Type} {n : Nat}

/-! ## Read after write -/

@[simp] theorem lookup_nil (k : Nat) : lookup k ([] : Store α) = none := rfl

theorem lookup_cons (k j : Nat) (v : α) (m : Store α) :
    lookup k ((j, v) :: m) = if j = k then some v else lookup k m := rfl

theorem lookup_insertAt (k j : Nat) (v : α) (m : Store α) :
    lookup j (insertAt k v m) = if j = k then some v else lookup j m := by
  induction m with
  | nil => simp [insertAt, lookup_cons, eq_comm]
  | cons e m ih =>
    obtain ⟨i, w⟩ := e
    by_cases h1 : k < i
    · simp only [insertAt, h1, if_true, lookup_cons]
      by_cases h : j = k
      · simp [h]
      · simp [h, Ne.symm h]
    · by_cases h2 : k = i
      · subst h2
        simp only [insertAt, if_neg h1, if_true, lookup_cons]
        by_cases h : j = k
        · simp [h]
        · simp [h, Ne.symm h]
      · simp only [insertAt, if_neg h1, if_neg h2, lookup_cons, ih]
        by_cases h : j = k
        · subst h
          simp [Ne.symm h2]
        · simp [h]

theorem lookup_eraseAt (k j : Nat) (m : Store α) :
    lookup j (eraseAt k m) = if j = k then none else lookup j m := by
  induction m with
  | nil => simp [eraseAt]
  | cons e m ih =>
    obtain ⟨i, w⟩ := e
    by_cases h : i = k
    · subst h
      simp only [eraseAt, if_true, ih, lookup_cons]
      by_cases hj : j = i
      · simp [hj]
      · simp [hj, Ne.symm hj]
    · simp only [eraseAt, if_neg h, lookup_cons, ih]
      by_cases hj : j = k
      · subst hj
        simp [h]
      · simp [hj]

@[simp] theorem readCell_nil (k : Nat) : readCell ([] : Store (BitVec n)) k = 0 := rfl

theorem readCell_writeCell (m : Store (BitVec n)) (k j : Nat) (v : BitVec n) :
    readCell (writeCell m k v) j = if j = k then v else readCell m j := by
  unfold readCell writeCell
  by_cases hv : v = 0
  · rw [if_pos hv, lookup_eraseAt]
    by_cases h : j = k <;> simp [hv, h]
  · rw [if_neg hv, lookup_insertAt]
    by_cases h : j = k <;> simp [h]

@[simp] theorem readCell_writeCell_same (m : Store (BitVec n)) (k : Nat) (v : BitVec n) :
    readCell (writeCell m k v) k = v := by simp [readCell_writeCell]

theorem readCell_writeCell_other (m : Store (BitVec n)) {k j : Nat} (v : BitVec n) (h : j ≠ k) :
    readCell (writeCell m k v) j = readCell m j := by simp [readCell_writeCell, h]

/-! ## The canonical form is kept -/

@[simp] theorem sortedKeys_cons (j : Nat) (v : α) (m : Store α) :
    sortedKeys ((j, v) :: m) = true ↔ (∀ e ∈ m, j < e.1) ∧ sortedKeys m = true := by
  simp [sortedKeys]

theorem mem_insertAt {k : Nat} {v : α} {m : Store α} {e : Nat × α} (h : e ∈ insertAt k v m) : e = (k, v) ∨ e ∈ m := by
  induction m with
  | nil => simpa [insertAt] using h
  | cons d m ih =>
    obtain ⟨i, w⟩ := d
    simp only [insertAt] at h
    split at h
    · simpa using h
    · split at h
      · rcases List.mem_cons.mp h with h | h
        · exact .inl h
        · exact .inr (List.mem_cons_of_mem _ h)
      · rcases List.mem_cons.mp h with h | h
        · exact .inr (h ▸ List.mem_cons_self)
        · exact (ih h).imp_right (List.mem_cons_of_mem _)

theorem mem_eraseAt {k : Nat} {m : Store α} {e : Nat × α} (h : e ∈ eraseAt k m) : e ∈ m := by
  induction m with
  | nil => exact h
  | cons d m ih =>
    obtain ⟨i, w⟩ := d
    simp only [eraseAt] at h
    split at h
    · exact List.mem_cons_of_mem _ (ih h)
    · rcases List.mem_cons.mp h with h | h
      · exact h ▸ List.mem_cons_self
      · exact List.mem_cons_of_mem _ (ih h)

theorem sortedKeys_insertAt (k : Nat) (v : α) {m : Store α} (h : sortedKeys m = true) :
    sortedKeys (insertAt k v m) = true := by
  induction m with
  | nil => simp [insertAt, sortedKeys]
  | cons d m ih =>
    obtain ⟨i, w⟩ := d
    obtain ⟨hi, hm⟩ := (sortedKeys_cons i w m).mp h
    simp only [insertAt]
    split
    next hk =>
      refine (sortedKeys_cons ..).mpr ⟨fun e he => ?_, h⟩
      rcases List.mem_cons.mp he with rfl | he
      · exact hk
      · exact Nat.lt_trans hk (hi e he)
    next hk =>
      split
      next hki => exact (sortedKeys_cons ..).mpr ⟨hki ▸ hi, hm⟩
      next hki =>
        refine (sortedKeys_cons ..).mpr ⟨fun e he => ?_, ih hm⟩
        rcases mem_insertAt he with rfl | he
        · show i < k
          omega
        · exact hi e he

theorem sortedKeys_eraseAt (k : Nat) {m : Store α} (h : sortedKeys m = true) : sortedKeys (eraseAt k m) = true := by
  induction m with
  | nil => exact h
  | cons d m ih =>
    obtain ⟨i, w⟩ := d
    obtain ⟨hi, hm⟩ := (sortedKeys_cons i w m).mp h
    simp only [eraseAt]
    split
    · exact ih hm
    · exact (sortedKeys_cons ..).mpr ⟨fun e he => hi e (mem_eraseAt he), ih hm⟩

/-- A canonical cell list, entry by entry. -/
theorem cellsWf_iff (size : Nat) (m : Store (BitVec n)) :
    cellsWf size m = true ↔ sortedKeys m = true ∧ ∀ e ∈ m, e.1 < size ∧ e.2 ≠ 0 := by
  simp [cellsWf, allEntries]

@[simp] theorem cellsWf_nil (size : Nat) : cellsWf size ([] : Store (BitVec n)) = true := rfl

/-- Writing a cell below `size` keeps the canonical form. -/
theorem cellsWf_writeCell {size k : Nat} {m : Store (BitVec n)} (h : cellsWf size m = true) (hk : k < size) (v : BitVec n) :
    cellsWf size (writeCell m k v) = true := by
  obtain ⟨hs, he⟩ := (cellsWf_iff size m).mp h
  unfold writeCell
  split
  · exact (cellsWf_iff ..).mpr ⟨sortedKeys_eraseAt k hs, fun e h => he e (mem_eraseAt h)⟩
  next hv =>
    refine (cellsWf_iff ..).mpr ⟨sortedKeys_insertAt k v hs, fun e h => ?_⟩
    rcases mem_insertAt h with rfl | h
    · exact ⟨hk, hv⟩
    · exact he e h

/-! ## Equal contents are equal lists -/

theorem lookup_eq_none_of_lt {k : Nat} {m : Store α} (h : ∀ e ∈ m, k < e.1) : lookup k m = none := by
  induction m with
  | nil => rfl
  | cons d m ih =>
    obtain ⟨i, w⟩ := d
    have hi : k < i := h (i, w) List.mem_cons_self
    rw [lookup_cons, if_neg (by omega)]
    exact ih fun e he => h e (List.mem_cons_of_mem _ he)

theorem mem_of_lookup {k : Nat} {m : Store α} {v : α} (h : lookup k m = some v) : (k, v) ∈ m := by
  induction m with
  | nil => simp at h
  | cons d m ih =>
    obtain ⟨i, w⟩ := d
    rw [lookup_cons] at h
    split at h
    next hik =>
      obtain rfl : w = v := by simpa using h
      exact hik ▸ List.mem_cons_self
    · exact List.mem_cons_of_mem _ (ih h)

/-- Sorted maps with the same entries are the same list. -/
theorem eq_of_lookup_eq {m₁ m₂ : Store α} (h₁ : sortedKeys m₁ = true) (h₂ : sortedKeys m₂ = true)
    (h : ∀ k, lookup k m₁ = lookup k m₂) : m₁ = m₂ := by
  induction m₁ generalizing m₂ with
  | nil =>
    cases m₂ with
    | nil => rfl
    | cons d m₂ =>
      obtain ⟨i, w⟩ := d
      have := h i
      simp [lookup_cons] at this
  | cons d m₁ ih =>
    obtain ⟨i, w⟩ := d
    obtain ⟨hi, hm₁⟩ := (sortedKeys_cons i w m₁).mp h₁
    cases m₂ with
    | nil =>
      have := h i
      simp [lookup_cons] at this
    | cons d m₂ =>
      obtain ⟨j, v⟩ := d
      obtain ⟨hj, hm₂⟩ := (sortedKeys_cons j v m₂).mp h₂
      have hij : i = j := by
        rcases Nat.lt_trichotomy i j with hlt | heq | hgt
        · have := h i
          rw [lookup_cons, if_pos rfl, lookup_cons, if_neg (by omega),
            lookup_eq_none_of_lt fun e he => Nat.lt_trans hlt (hj e he)] at this
          cases this
        · exact heq
        · have := h j
          rw [lookup_cons, if_neg (by omega), lookup_cons, if_pos rfl,
            lookup_eq_none_of_lt fun e he => Nat.lt_trans hgt (hi e he)] at this
          cases this
      subst hij
      have hwv : w = v := by simpa [lookup_cons] using h i
      subst hwv
      congr 1
      refine ih hm₁ hm₂ fun k => ?_
      have := h k
      rw [lookup_cons, lookup_cons] at this
      split at this
      next hik =>
        subst hik
        rw [lookup_eq_none_of_lt hi, lookup_eq_none_of_lt hj]
      · exact this

end Sys2Proof.Machine
end

