-- ==== Sys2Proof/Laws/Ops.lean ====
section
/-! SUPPORT. What each shared operation does, said once: registers, operand checks, call stack, ROM and RAM accesses, pixels and the
commit of an instruction. -/

namespace Sys2Proof.Machine

variable (s : State)

/-! ## Registers -/

theorem State.reg_setReg (i j : Fin 32) (v : Word) : (s.setReg i v).reg j = if j = i then v else s.reg j := by
  by_cases h : j = i
  · subst h
    simp [State.reg]
  · have : (i : Nat) ≠ j := fun e => h (Fin.ext e.symm)
    simp [State.reg, h, this]

@[simp] theorem State.reg_setReg_same (i : Fin 32) (v : Word) : (s.setReg i v).reg i = v := by simp [State.reg_setReg]

theorem State.reg_setReg_other {i j : Fin 32} (v : Word) (h : j ≠ i) : (s.setReg i v).reg j = s.reg j := by
  simp [State.reg_setReg, h]

/-- A register byte below 32 is its own index (rule R22). -/
theorem regIndex_ok {r : Byte} {d : Fin 32} (h : r.toNat = d) : regIndex r = .ok d := by
  have hr : r.toNat < 32 := h ▸ d.isLt
  simp only [regIndex, dif_pos hr]
  exact congrArg Except.ok (Fin.ext h)

/-- A register byte of 32 or more raises RegisterFault (rule R22). -/
theorem regIndex_error {r : Byte} (h : 32 ≤ r.toNat) : regIndex r = .error .registerFault := by
  simp only [regIndex, dif_neg (show ¬ r.toNat < 32 by omega)]

theorem regIndex_cases (r : Byte) :
    (∃ d : Fin 32, r.toNat = d ∧ regIndex r = .ok d) ∨ (32 ≤ r.toNat ∧ regIndex r = .error .registerFault) := by
  by_cases h : r.toNat < 32
  · exact .inl ⟨⟨r.toNat, h⟩, rfl, regIndex_ok rfl⟩
  · exact .inr ⟨by omega, regIndex_error (by omega)⟩

/-! ## Except sequencing -/

@[simp] theorem bind_ok {α β : Type} (a : α) (f : α → Except CoreFault β) : (Except.ok a >>= f) = f a := rfl

@[simp] theorem bind_error {α β : Type} (e : CoreFault) (f : α → Except CoreFault β) :
    (Except.error e >>= f) = .error e := rfl

@[simp] theorem pure_eq_ok {α : Type} (a : α) : (pure a : Except CoreFault α) = .ok a := rfl

/-- A sequence that succeeds has both its parts succeed. -/
theorem bind_eq_ok {α β : Type} {x : Except CoreFault α} {f : α → Except CoreFault β} {b : β} :
    (x >>= f) = .ok b ↔ ∃ a, x = .ok a ∧ f a = .ok b := by
  cases x <;> simp

/-! ## Call stack (rules R27, R28) -/

theorem State.push_ok {v : Word} (h : s.sp ≠ s.cfg.stackCap) :
    s.push v = .ok { s with stack := writeCell s.stack s.sp v, sp := s.sp + 1 } := by
  simp [State.push, h]

theorem State.push_error {v : Word} (h : s.sp = s.cfg.stackCap) : s.push v = .error .stackFault := by
  simp [State.push, h]

theorem State.pop_ok (h : s.sp ≠ 0) : s.pop = .ok (s.stackAt (s.sp - 1), { s with sp := s.sp - 1 }) := by
  simp [State.pop, h]

theorem State.pop_error (h : s.sp = 0) : s.pop = .error .stackFault := by
  simp [State.pop, h]

/-! ## ROM -/

theorem romByte_ok {rom : List Byte} {a : Nat} {b : Byte} (h : rom[a]? = some b) : romByte rom a = .ok b := by
  simp [romByte, h]

theorem romByte_error {rom : List Byte} {a : Nat} (h : rom[a]? = none) : romByte rom a = .error .romFault := by
  simp [romByte, h]

theorem romByte_cases (rom : List Byte) (a : Nat) :
    (∃ b, rom[a]? = some b ∧ romByte rom a = .ok b) ∨ (rom.length ≤ a ∧ romByte rom a = .error .romFault) := by
  cases h : rom[a]? with
  | some b => exact .inl ⟨b, rfl, romByte_ok h⟩
  | none => exact .inr ⟨List.getElem?_eq_none_iff.mp h, romByte_error h⟩

/-! ## RAM -/

theorem State.ramAt_setRam (a b : Nat) (v : Byte) : (s.setRam a v).ramAt b = if b = a then v else s.ramAt b := by
  simp [State.ramAt, readCell_writeCell]

/-- Outside the written bytes the RAM reads what it read before. -/
theorem State.ramAt_setRamBytes_outside (a : Nat) (bs : List Byte) (b : Nat) (h : b < a ∨ a + bs.length ≤ b) :
    (s.setRamBytes a bs).ramAt b = s.ramAt b := by
  induction bs generalizing s a with
  | nil => rfl
  | cons c bs ih =>
    simp only [List.length_cons] at h
    rw [State.setRamBytes, ih _ _ (by omega), State.ramAt_setRam, if_neg (by omega)]

/-- Inside the written bytes the RAM reads what was written. -/
theorem State.ramAt_setRamBytes_inside (a : Nat) (bs : List Byte) (k : Nat) (h : k < bs.length) :
    (s.setRamBytes a bs).ramAt (a + k) = bs[k] := by
  induction bs generalizing s a k with
  | nil => simp at h
  | cons b bs ih =>
    cases k with
    | zero =>
      rw [State.setRamBytes, State.ramAt_setRamBytes_outside _ _ _ _ (by omega)]
      simp [State.ramAt_setRam]
    | succ k =>
      have := ih (s.setRam a b) (a + 1) k (by simpa using h)
      rw [State.setRamBytes, show a + (k + 1) = a + 1 + k by omega, this]
      rfl

/-- Writing bytes below 65536 keeps the RAM in canonical form. -/
theorem State.ram_wf_setRamBytes {a : Nat} {bs : List Byte} (h : Memory.wf s.ram = true) (hb : a + bs.length ≤ 65536) :
    Memory.wf (s.setRamBytes a bs).ram = true := by
  induction bs generalizing s a with
  | nil => exact h
  | cons b bs ih =>
    simp only [List.length_cons] at hb
    exact ih _ (cellsWf_writeCell h (show a < 65536 by omega) b) (by omega)

theorem State.memRead32_ok {a : Word} (h : a.toNat < 65533) :
    s.memRead32 a = .ok (be32 (s.ramAt a.toNat) (s.ramAt (a.toNat + 1)) (s.ramAt (a.toNat + 2)) (s.ramAt (a.toNat + 3))) := by
  simp only [State.memRead32, ramSize, if_neg (show ¬ a.toNat + 3 ≥ 65536 by omega)]

theorem State.memRead32_error {a : Word} (h : 65533 ≤ a.toNat) : s.memRead32 a = .error .memoryFault := by
  simp only [State.memRead32, ramSize, if_pos (show a.toNat + 3 ≥ 65536 by omega)]

theorem State.memWrite32_ok {a v : Word} (h : a.toNat < 65533) :
    s.memWrite32 a v = .ok (s.setRamBytes a.toNat (wordBytes v)) := by
  simp only [State.memWrite32, ramSize, if_neg (show ¬ a.toNat + 3 ≥ 65536 by omega)]

theorem State.memWrite32_error {a v : Word} (h : 65533 ≤ a.toNat) : s.memWrite32 a v = .error .memoryFault := by
  simp only [State.memWrite32, ramSize, if_pos (show a.toNat + 3 ≥ 65536 by omega)]

/-- The bytes that a 32-bit store leaves in the RAM, one by one (rule R68). -/
theorem State.ramAt_store32 (a : Nat) (v : Word) (k : Nat) (h : k < 4) :
    (s.setRamBytes a (wordBytes v)).ramAt (a + k) = byteOf v k := by
  rw [State.ramAt_setRamBytes_inside s a (wordBytes v) k h]
  match k, h with
  | 0, _ | 1, _ | 2, _ | 3, _ => rfl

/-! ## Pixels -/

/-- Different pixels of a surface have different keys. -/
theorem pixel_keys_differ {w x y x' y' : Nat} (hx : x < w) (hx' : x' < w) (h : y * w + x = y' * w + x') :
    x = x' ∧ y = y' := by
  have hw : 0 < w := by omega
  have e1 : (y * w + x) % w = x := by rw [Nat.mul_comm, Nat.mul_add_mod, Nat.mod_eq_of_lt hx]
  have e2 : (y' * w + x') % w = x' := by rw [Nat.mul_comm, Nat.mul_add_mod, Nat.mod_eq_of_lt hx']
  have d1 : (y * w + x) / w = y := by rw [Nat.mul_comm, Nat.mul_add_div hw, Nat.div_eq_of_lt hx, Nat.add_zero]
  have d2 : (y' * w + x') / w = y' := by rw [Nat.mul_comm, Nat.mul_add_div hw, Nat.div_eq_of_lt hx', Nat.add_zero]
  exact ⟨by rw [← e1, h, e2], by rw [← d1, h, d2]⟩

theorem pixel_key_lt {w h x y : Nat} (hx : x < w) (hy : y < h) : y * w + x < w * h := by
  calc y * w + x < y * w + w := by omega
    _ = (y + 1) * w := by ring
    _ ≤ h * w := Nat.mul_le_mul_right w hy
    _ = w * h := Nat.mul_comm h w

theorem back_ne_current : s.back ≠ s.current := by
  unfold State.back
  generalize s.current = c
  revert c
  decide

theorem eq_back_of_ne {k : Fin 2} (h : k ≠ s.current) : k = s.back := by
  unfold State.back
  generalize s.current = c at *
  revert k c
  decide

/-- A plotted pixel is read back, and every other pixel of both surfaces is as before (rule R183). -/
theorem State.pixel_plotBack {px py x y : Nat} (c : Word) (k : Fin 2) (hpx : px < s.cfg.fbWidth) (hx : x < s.cfg.fbWidth) :
    (s.plotBack px py c).pixel k x y = if k = s.back ∧ x = px ∧ y = py then c else s.pixel k x y := by
  simp only [State.pixel, State.plotBack, State.pixelIndex, Vector.getElem_set]
  by_cases hk : k = s.back
  · subst hk
    simp only [if_true, readCell_writeCell, true_and]
    by_cases h : x = px ∧ y = py
    · simp [h]
    · rw [if_neg h, if_neg fun e => h (pixel_keys_differ hx hpx e)]
  · have : s.back.val ≠ k.val := fun e => hk (Fin.ext e.symm)
    simp [hk, this]

/-- A plot never touches the front surface, whatever its coordinates. -/
theorem State.front_plotBack (px py x y : Nat) (c : Word) :
    (s.plotBack px py c).pixel s.current x y = s.pixel s.current x y := by
  have : s.back.val ≠ s.current.val := fun e => back_ne_current s (Fin.ext e)
  simp [State.pixel, State.pixelIndex, State.plotBack, this]

/-- A plot inside the surface keeps both surfaces in canonical form. -/
theorem State.surfaces_wf_plotBack {px py : Nat} {c : Word} (hpx : px < s.cfg.fbWidth) (hpy : py < s.cfg.fbHeight)
    (h : ∀ k : Fin 2, Surface.wf s.cfg.fbWidth s.cfg.fbHeight s.fb[k.val] = true) (k : Fin 2) :
    Surface.wf s.cfg.fbWidth s.cfg.fbHeight (s.plotBack px py c).fb[k.val] = true := by
  simp only [State.plotBack, Vector.getElem_set]
  split
  · exact cellsWf_writeCell (h s.back) (pixel_key_lt hpx hpy) c
  · exact h k

/-! ## Sprite cache -/

theorem State.cached_cacheSprite (a b : Word) (img : Sprite) :
    (s.cacheSprite a img).cached b = if b = a then some img else s.cached b := by
  simp [State.cached, lookup_insertAt, BitVec.toNat_inj]

/-! ## Commit and fault entry (rules R123, R210) -/

@[simp] theorem State.complete_ok (t : State) : s.complete (.ok t) = .next t.countStep := rfl

@[simp] theorem State.complete_error (f : CoreFault) : s.complete (.error f) = .next (s.raise f) := rfl

end Sys2Proof.Machine
end

