-- ==== Sys2Proof/Laws/Sprites.lean ====
section
/-! SUPPORT. What the sprite decoder reads, what a cache access answers, and where a blit leaves its pixels
(rules R184 to R187). -/

namespace Sys2Proof.Machine

/-! ## Multi-byte ROM reads (rule R65) -/

theorem exists_byte {rom : List Byte} {a : Nat} (h : a < rom.length) : ∃ b, rom[a]? = some b :=
  ⟨rom[a], List.getElem?_eq_getElem h⟩

theorem romRead16_ok {rom : List Byte} {a : Nat} {b0 b1 : Byte} (h0 : rom[a]? = some b0) (h1 : rom[a + 1]? = some b1) :
    romRead16 rom a = .ok (be16 b0 b1) := by
  simp [romRead16, romByte_ok h0, romByte_ok h1]

theorem romRead16_error {rom : List Byte} {a : Nat} (h : rom.length < a + 2) : romRead16 rom a = .error .romFault := by
  unfold romRead16
  rcases romByte_cases rom a with ⟨b0, h0, e0⟩ | ⟨_, e0⟩
  · rw [e0, bind_ok, romByte_error (List.getElem?_eq_none (by omega)), bind_error]
  · rw [e0, bind_error]

theorem romRead32_ok {rom : List Byte} {a : Nat} {b0 b1 b2 b3 : Byte} (h0 : rom[a]? = some b0) (h1 : rom[a + 1]? = some b1)
    (h2 : rom[a + 2]? = some b2) (h3 : rom[a + 3]? = some b3) : romRead32 rom a = .ok (be32 b0 b1 b2 b3) := by
  simp [romRead32, romByte_ok h0, romByte_ok h1, romByte_ok h2, romByte_ok h3]

theorem romRead32_error {rom : List Byte} {a : Nat} (h : rom.length < a + 4) : romRead32 rom a = .error .romFault := by
  unfold romRead32
  rcases romByte_cases rom a with ⟨b0, h0, e0⟩ | ⟨_, e0⟩
  · rw [e0, bind_ok]
    rcases romByte_cases rom (a + 1) with ⟨b1, h1, e1⟩ | ⟨_, e1⟩
    · rw [e1, bind_ok]
      rcases romByte_cases rom (a + 2) with ⟨b2, h2, e2⟩ | ⟨_, e2⟩
      · rw [e2, bind_ok, romByte_error (List.getElem?_eq_none (by omega)), bind_error]
      · rw [e2, bind_error]
    · rw [e1, bind_error]
  · rw [e0, bind_error]

/-! ## The raster and the record (rules R184, R185) -/

/-- A raster that lies in the ROM is read whole, pixel by pixel. -/
theorem readRaster_ok {rom : List Byte} {count a : Nat} (h : a + 4 * count ≤ rom.length) :
    ∃ px, readRaster rom count a = .ok px ∧ px.length = count ∧
      ∀ k, k < count → ∃ b0 b1 b2 b3, px[k]? = some (be32 b0 b1 b2 b3) ∧ rom[a + 4 * k]? = some b0 ∧
        rom[a + 4 * k + 1]? = some b1 ∧ rom[a + 4 * k + 2]? = some b2 ∧ rom[a + 4 * k + 3]? = some b3 := by
  induction count generalizing a with
  | zero => exact ⟨[], rfl, rfl, fun k hk => by omega⟩
  | succ n ih =>
    obtain ⟨b0, h0⟩ := exists_byte (rom := rom) (a := a) (by omega)
    obtain ⟨b1, h1⟩ := exists_byte (rom := rom) (a := a + 1) (by omega)
    obtain ⟨b2, h2⟩ := exists_byte (rom := rom) (a := a + 2) (by omega)
    obtain ⟨b3, h3⟩ := exists_byte (rom := rom) (a := a + 3) (by omega)
    obtain ⟨px, e, hl, hp⟩ := ih (a := a + 4) (by omega)
    refine ⟨be32 b0 b1 b2 b3 :: px, ?_, by simp [hl], fun k hk => ?_⟩
    · simp only [readRaster, romRead32_ok h0 h1 h2 h3, bind_ok, e, pure_eq_ok]
    · cases k with
      | zero => exact ⟨b0, b1, b2, b3, rfl, h0, h1, h2, h3⟩
      | succ k =>
        have := hp k (by omega)
        simpa only [List.getElem?_cons_succ, show a + 4 + 4 * k = a + 4 * (k + 1) by omega] using this

/-- A raster that does not lie in the ROM raises RomFault. -/
theorem readRaster_error {rom : List Byte} {count a : Nat} (hc : 0 < count) (h : rom.length < a + 4 * count) :
    readRaster rom count a = .error .romFault := by
  induction count generalizing a with
  | zero => omega
  | succ n ih =>
    by_cases ha : rom.length < a + 4
    · simp only [readRaster, romRead32_error ha, bind_error]
    · obtain ⟨b0, h0⟩ := exists_byte (rom := rom) (a := a) (by omega)
      obtain ⟨b1, h1⟩ := exists_byte (rom := rom) (a := a + 1) (by omega)
      obtain ⟨b2, h2⟩ := exists_byte (rom := rom) (a := a + 2) (by omega)
      obtain ⟨b3, h3⟩ := exists_byte (rom := rom) (a := a + 3) (by omega)
      have := ih (a := a + 4) (by omega) (by omega)
      simp only [readRaster, romRead32_ok h0 h1 h2 h3, bind_ok, this, bind_error]

/-- Decoding a record whose header lies in the ROM is reading its raster. -/
theorem decodeSprite_of_header {rom : List Byte} {a : Nat} {w1 w0 h1 h0 : Byte} (e1 : rom[a]? = some w1)
    (e2 : rom[a + 1]? = some w0) (e3 : rom[a + 2]? = some h1) (e4 : rom[a + 3]? = some h0) :
    decodeSprite rom a = (readRaster rom ((be16 w1 w0).toNat * (be16 h1 h0).toNat) (a + 4)) >>= fun px =>
      .ok { w := be16 w1 w0, h := be16 h1 h0, px := px } := by
  unfold decodeSprite
  rw [romRead16_ok e1 e2, bind_ok, romRead16_ok (a := a + 2) e3 e4, bind_ok]
  rfl

theorem decodeSprite_short_header {rom : List Byte} {a : Nat} (h : rom.length < a + 4) :
    decodeSprite rom a = .error .romFault := by
  unfold decodeSprite
  by_cases h2 : rom.length < a + 2
  · rw [romRead16_error h2, bind_error]
  · obtain ⟨w1, e1⟩ := exists_byte (rom := rom) (a := a) (by omega)
    obtain ⟨w0, e0⟩ := exists_byte (rom := rom) (a := a + 1) (by omega)
    rw [romRead16_ok e1 e0, bind_ok, romRead16_error (by omega), bind_error]

/-- Decoding answers an image or raises RomFault, and nothing else. -/
theorem decodeSprite_cases (rom : List Byte) (a : Nat) :
    (∃ img, decodeSprite rom a = .ok img) ∨ decodeSprite rom a = .error .romFault := by
  by_cases h : rom.length < a + 4
  · exact .inr (decodeSprite_short_header h)
  · obtain ⟨w1, e1⟩ := exists_byte (rom := rom) (a := a) (by omega)
    obtain ⟨w0, e2⟩ := exists_byte (rom := rom) (a := a + 1) (by omega)
    obtain ⟨h1, e3⟩ := exists_byte (rom := rom) (a := a + 2) (by omega)
    obtain ⟨h0, e4⟩ := exists_byte (rom := rom) (a := a + 3) (by omega)
    rw [decodeSprite_of_header e1 e2 e3 e4]
    generalize (be16 w1 w0).toNat * (be16 h1 h0).toNat = n
    by_cases hn : a + 4 + 4 * n ≤ rom.length
    · obtain ⟨px, e, -⟩ := readRaster_ok hn
      exact .inl ⟨_, by rw [e, bind_ok]⟩
    · exact .inr (by rw [readRaster_error (by omega) (by omega), bind_error])

/-! ## The cache access (rule R186) -/

variable (s : State)

theorem State.getSprite_hit {a : Word} {img : Sprite} (h : s.cached a = some img) : s.getSprite a = .ok (img, s) := by
  simp [State.getSprite, h]

theorem State.getSprite_miss {a : Word} {img : Sprite} (h : s.cached a = none) (hd : decodeSprite s.rom a.toNat = .ok img) :
    s.getSprite a = .ok (img, s.cacheSprite a img) := by
  simp [State.getSprite, h, hd]

theorem State.getSprite_error {a : Word} (h : s.cached a = none) (hd : decodeSprite s.rom a.toNat = .error .romFault) :
    s.getSprite a = .error .romFault := by
  simp [State.getSprite, h, hd]

/-- A cache access answers the cached image and the state as it was, or a decoded image now cached, or RomFault. -/
theorem State.getSprite_cases (a : Word) :
    (∃ img, s.cached a = some img ∧ s.getSprite a = .ok (img, s)) ∨
    (∃ img, s.cached a = none ∧ decodeSprite s.rom a.toNat = .ok img ∧ s.getSprite a = .ok (img, s.cacheSprite a img)) ∨
    (s.cached a = none ∧ decodeSprite s.rom a.toNat = .error .romFault ∧ s.getSprite a = .error .romFault) := by
  cases h : s.cached a with
  | some img => exact .inl ⟨img, rfl, s.getSprite_hit h⟩
  | none =>
    rcases decodeSprite_cases s.rom a.toNat with ⟨img, e⟩ | e
    · exact .inr (.inl ⟨img, rfl, e, s.getSprite_miss h e⟩)
    · exact .inr (.inr ⟨rfl, e, s.getSprite_error h e⟩)

/-- A cached image, or one that decodes, is what a cache access answers; afterwards it is in the cache and no other entry has
changed. -/
theorem State.getSprite_of_image {a : Word} {img : Sprite}
    (h : s.cached a = some img ∨ s.cached a = none ∧ decodeSprite s.rom a.toNat = .ok img) :
    ∃ c, s.getSprite a = .ok (img, { s with scache := c }) ∧ lookup a.toNat c = some img ∧
      ∀ b : Word, b ≠ a → lookup b.toNat c = s.cached b := by
  rcases h with h | ⟨h, hd⟩
  · exact ⟨s.scache, s.getSprite_hit h, h, fun _ _ => rfl⟩
  · exact ⟨_, s.getSprite_miss h hd, by simp [lookup_insertAt], fun b hb => by
      simp [lookup_insertAt, BitVec.toNat_inj, hb, State.cached]⟩

/-! ## Where a blit leaves its pixels (rule R187) -/

theorem State.blitFrom_nil (x0 y0 w k : Nat) : State.blitFrom x0 y0 w k [] s = s := rfl

theorem State.blitFrom_cons (x0 y0 w k : Nat) (p : Word) (ps : List Word) :
    State.blitFrom x0 y0 w k (p :: ps) s =
      State.blitFrom x0 y0 w (k + 1) ps
        (s.plotBack ((x0 + k % w) % s.cfg.fbWidth) ((y0 + k / w) % s.cfg.fbHeight) p) := rfl

/-- A blit never touches the front surface (rule R189). -/
theorem State.front_blitFrom (x0 y0 w k : Nat) (ps : List Word) (x y : Nat) :
    (State.blitFrom x0 y0 w k ps s).pixel s.current x y = s.pixel s.current x y := by
  induction ps generalizing s k with
  | nil => rfl
  | cons p ps ih =>
    rw [State.blitFrom_cons]
    exact (ih (s.plotBack _ _ p) (k + 1)).trans (s.front_plotBack _ _ x y p)

/-- A pixel on which no raster pixel lands keeps its value. -/
theorem State.back_blitFrom_untouched {x y : Nat} (x0 y0 w k : Nat) (ps : List Word) (hx : x < s.cfg.fbWidth)
    (h : ∀ l, l < ps.length →
      (x0 + (k + l) % w) % s.cfg.fbWidth ≠ x ∨ (y0 + (k + l) / w) % s.cfg.fbHeight ≠ y) :
    (State.blitFrom x0 y0 w k ps s).pixel s.back x y = s.pixel s.back x y := by
  induction ps generalizing s k with
  | nil => rfl
  | cons p ps ih =>
    rw [State.blitFrom_cons]
    refine (ih (s.plotBack _ _ p) (k + 1) hx fun l hl => ?_).trans ?_
    · have := h (l + 1) (by simpa using hl)
      rwa [show k + (l + 1) = k + 1 + l by omega] at this
    · refine (s.pixel_plotBack p s.back (Nat.mod_lt _ (by omega)) hx).trans (if_neg ?_)
      rintro ⟨-, rfl, rfl⟩
      simpa using h 0 (by simp)

/-- A pixel takes the value of the last raster pixel that lands on it. -/
theorem State.back_blitFrom_last {x y : Nat} (x0 y0 w k : Nat) (ps : List Word) (hx : x < s.cfg.fbWidth) {l : Nat} {c : Word}
    (hc : ps[l]? = some c) (hlx : (x0 + (k + l) % w) % s.cfg.fbWidth = x) (hly : (y0 + (k + l) / w) % s.cfg.fbHeight = y)
    (h : ∀ m, l < m → m < ps.length →
      (x0 + (k + m) % w) % s.cfg.fbWidth ≠ x ∨ (y0 + (k + m) / w) % s.cfg.fbHeight ≠ y) :
    (State.blitFrom x0 y0 w k ps s).pixel s.back x y = c := by
  induction ps generalizing s k l with
  | nil => simp at hc
  | cons p ps ih =>
    rw [State.blitFrom_cons]
    cases l with
    | zero =>
      obtain rfl : p = c := by simpa using hc
      refine ((s.plotBack _ _ p).back_blitFrom_untouched x0 y0 w (k + 1) ps hx fun m hm => ?_).trans ?_
      · have := h (m + 1) (by omega) (by simpa using hm)
        rwa [show k + (m + 1) = k + 1 + m by omega] at this
      · rw [Nat.add_zero] at hlx hly
        exact (s.pixel_plotBack p s.back (Nat.mod_lt _ (by omega)) hx).trans (if_pos ⟨rfl, hlx.symm, hly.symm⟩)
    | succ l =>
      refine ih (s.plotBack _ _ p) (k + 1) hx (by simpa using hc) ?_ ?_ fun m hm hm' => ?_
      · rwa [show k + 1 + l = k + (l + 1) by omega]
      · rwa [show k + 1 + l = k + (l + 1) by omega]
      · have := h (m + 1) (by omega) (by simpa using hm')
        rwa [show k + (m + 1) = k + 1 + m by omega] at this

/-- A blit keeps both surfaces in canonical form. -/
theorem State.surfaces_wf_blitFrom (x0 y0 w k : Nat) (ps : List Word) (hw : 1 ≤ s.cfg.fbWidth) (hh : 1 ≤ s.cfg.fbHeight)
    (h : ∀ j : Fin 2, Surface.wf s.cfg.fbWidth s.cfg.fbHeight s.fb[j.val] = true) (j : Fin 2) :
    Surface.wf s.cfg.fbWidth s.cfg.fbHeight (State.blitFrom x0 y0 w k ps s).fb[j.val] = true := by
  induction ps generalizing s k with
  | nil => exact h j
  | cons p ps ih =>
    exact ih (s.plotBack _ _ p) (k + 1) hw hh (s.surfaces_wf_plotBack (Nat.mod_lt _ hw) (Nat.mod_lt _ hh) h)

end Sys2Proof.Machine
end

