-- ==== Sys2Proof/Laws/Strings.lean ====
section
/-! SUPPORT. What the string scans answer (rules R170, R171). -/

namespace Sys2Proof.Machine

/-- `bs` is a string: no byte of it is the terminator. -/
def NoZero (bs : List Byte) : Prop := ∀ b ∈ bs, b ≠ 0

/-! ## Strings in a byte list -/

theorem stringBytes_of_terminated {bs rest : List Byte} (h : NoZero bs) : stringBytes (bs ++ 0 :: rest) = some bs := by
  induction bs with
  | nil => simp [stringBytes]
  | cons b bs ih =>
    have hb : b ≠ 0 := h b List.mem_cons_self
    have := ih fun c hc => h c (List.mem_cons_of_mem _ hc)
    rw [List.cons_append, stringBytes, if_neg hb, this]
    rfl

theorem stringBytes_eq_none {bs : List Byte} (h : NoZero bs) : stringBytes bs = none := by
  induction bs with
  | nil => rfl
  | cons b bs ih =>
    rw [stringBytes, if_neg (h b List.mem_cons_self), ih fun c hc => h c (List.mem_cons_of_mem _ hc)]
    rfl

/-- A ROM that holds the bytes `bs` and then a terminator from `a` on, as a split of the list. -/
theorem drop_eq_of_terminated {rom bs : List Byte} {a : Nat} (h : ∀ k (hk : k < bs.length), rom[a + k]? = some bs[k])
    (h0 : rom[a + bs.length]? = some 0) : rom.drop a = bs ++ 0 :: rom.drop (a + bs.length + 1) := by
  apply List.ext_getElem?
  intro k
  rw [List.getElem?_drop]
  rcases Nat.lt_trichotomy k bs.length with hk | rfl | hk
  · rw [List.getElem?_append_left hk, h k hk, List.getElem?_eq_getElem hk]
  · rw [h0, List.getElem?_append_right (Nat.le_refl _)]
    simp
  · obtain ⟨j, rfl⟩ : ∃ j, k = bs.length + 1 + j := ⟨k - (bs.length + 1), by omega⟩
    rw [List.getElem?_append_right (by omega), show bs.length + 1 + j - bs.length = j + 1 by omega, List.getElem?_cons_succ,
      List.getElem?_drop]
    congr 1
    omega

/-- The ROM string at `a` (rule R170). -/
theorem romString_ok {rom bs : List Byte} {a : Nat} (h : ∀ k (hk : k < bs.length), rom[a + k]? = some bs[k] ∧ bs[k] ≠ 0)
    (h0 : rom[a + bs.length]? = some 0) : romString rom a = .ok bs := by
  have hz : NoZero bs := by
    intro b hb
    obtain ⟨k, hk, rfl⟩ := List.getElem_of_mem hb
    exact (h k hk).2
  rw [romString, drop_eq_of_terminated (fun k hk => (h k hk).1) h0, stringBytes_of_terminated hz]

theorem romString_error {rom : List Byte} {a : Nat} (h : ∀ b, a ≤ b → rom[b]? ≠ some 0) :
    romString rom a = .error .romFault := by
  have hz : NoZero (rom.drop a) := by
    intro b hb hb0
    obtain ⟨k, hk, e⟩ := List.getElem_of_mem hb
    refine h (a + k) (by omega) ?_
    rw [← List.getElem?_drop, List.getElem?_eq_getElem hk, e, hb0]
  rw [romString, stringBytes_eq_none hz]

theorem romString_cases (rom : List Byte) (a : Nat) :
    (∃ bs, romString rom a = .ok bs) ∨ romString rom a = .error .romFault := by
  unfold romString
  split
  · exact .inl ⟨_, rfl⟩
  · exact .inr rfl

/-! ## Strings in the RAM -/

variable (s : State)

theorem State.memRead8_ok {a : Nat} (h : a < 65536) : s.memRead8 a = .ok (s.ramAt a) := by
  simp only [State.memRead8, ramSize, if_neg (show ¬ a ≥ 65536 by omega)]

theorem State.memRead8_error {a : Nat} (h : 65536 ≤ a) : s.memRead8 a = .error .memoryFault := by
  simp only [State.memRead8, ramSize, if_pos (show a ≥ 65536 from h)]

theorem State.memStringFrom_ok (fuel a : Nat) (bs : List Byte)
    (h : ∀ k (hk : k < bs.length), s.ramAt (a + k) = bs[k] ∧ bs[k] ≠ 0) (h0 : s.ramAt (a + bs.length) = 0)
    (hb : a + bs.length < 65536) (hf : bs.length < fuel) : s.memStringFrom fuel a = .ok bs := by
  induction bs generalizing a fuel with
  | nil =>
    obtain ⟨f, rfl⟩ : ∃ f, fuel = f + 1 := ⟨fuel - 1, by simp at hf; omega⟩
    have h0' : s.ramAt a = 0 := by simpa using h0
    simp only [List.length_nil, Nat.add_zero] at hb
    simp [State.memStringFrom, s.memRead8_ok hb, h0']
  | cons b bs ih =>
    simp only [List.length_cons] at hb hf h0
    obtain ⟨f, rfl⟩ : ∃ f, fuel = f + 1 := ⟨fuel - 1, by omega⟩
    have hhead := h 0 (by simp)
    simp only [Nat.add_zero, List.getElem_cons_zero] at hhead
    have hrec := ih f (a + 1)
      (fun k hk => by
        have := h (k + 1) (by simpa using hk)
        rwa [show a + (k + 1) = a + 1 + k by omega, List.getElem_cons_succ] at this)
      (by rwa [show a + 1 + bs.length = a + (bs.length + 1) by omega]) (by omega) (by omega)
    have hb0 : ¬ s.ramAt a = 0 := hhead.1 ▸ hhead.2
    simp only [State.memStringFrom, s.memRead8_ok (show a < 65536 by omega), bind_ok, if_neg hb0, hrec, pure_eq_ok]
    rw [hhead.1]

theorem State.memStringFrom_error (fuel a : Nat) (h : ∀ b, a ≤ b → b < 65536 → s.ramAt b ≠ 0) :
    s.memStringFrom fuel a = .error .memoryFault := by
  induction fuel generalizing a with
  | zero => rfl
  | succ f ih =>
    by_cases ha : a < 65536
    · simp only [State.memStringFrom, s.memRead8_ok ha, bind_ok, if_neg (h a (Nat.le_refl _) ha)]
      rw [ih (a + 1) fun b hb => h b (by omega)]
      rfl
    · have ha' : 65536 ≤ a := by omega
      simp only [State.memStringFrom, s.memRead8_error ha', bind_error]

theorem State.memString_ok {a : Nat} {bs : List Byte} (h : ∀ k (hk : k < bs.length), s.ramAt (a + k) = bs[k] ∧ bs[k] ≠ 0)
    (h0 : s.ramAt (a + bs.length) = 0) (hb : a + bs.length < 65536) : s.memString a = .ok bs :=
  s.memStringFrom_ok _ a bs h h0 hb (by simp only [ramSize]; omega)

theorem State.memString_error {a : Nat} (h : ∀ b, a ≤ b → b < 65536 → s.ramAt b ≠ 0) :
    s.memString a = .error .memoryFault := s.memStringFrom_error _ a h

theorem State.memString_cases (a : Nat) : (∃ bs, s.memString a = .ok bs) ∨ s.memString a = .error .memoryFault := by
  unfold State.memString
  generalize ramSize + 1 = fuel
  induction fuel generalizing a with
  | zero => exact .inr rfl
  | succ f ih =>
    simp only [State.memStringFrom]
    by_cases ha : a < 65536
    · rw [s.memRead8_ok ha, bind_ok]
      split
      · exact .inl ⟨[], rfl⟩
      · rcases ih (a + 1) with ⟨bs, e⟩ | e
        · exact .inl ⟨s.ramAt a :: bs, by rw [e]; rfl⟩
        · exact .inr (by rw [e]; rfl)
    · exact .inr (by rw [s.memRead8_error (by omega), bind_error])

/-! ## The scan of STORE_STR -/

/-- A scan that succeeds has found a string, and all it copies fits below 65536. -/
theorem copyScan_fits {bs out : List Byte} {d : Nat} (h : copyScan bs d = .ok out) : d + out.length ≤ 65536 := by
  induction bs generalizing d out with
  | nil => cases h
  | cons b bs ih =>
    simp only [copyScan, ramSize] at h
    split at h
    · cases h
    · split at h
      · cases h
        simp only [List.length_cons, List.length_nil]
        omega
      · obtain ⟨rest, e, e'⟩ := bind_eq_ok.mp h
        cases e'
        have := ih e
        simp only [List.length_cons]
        omega

/-- The bytes of a terminated string are copied with their terminator when they fit (rule R171). -/
theorem copyScan_ok {bs rest : List Byte} {d : Nat} (h : NoZero bs) (hd : d + bs.length < 65536) :
    copyScan (bs ++ 0 :: rest) d = .ok (bs ++ [0]) := by
  induction bs generalizing d with
  | nil =>
    simp only [List.length_nil] at hd
    simp only [List.nil_append, copyScan, ramSize, if_neg (show ¬ d ≥ 65536 by omega), if_true]
  | cons b bs ih =>
    simp only [List.length_cons] at hd
    have := ih (d := d + 1) (fun c hc => h c (List.mem_cons_of_mem _ hc)) (by omega)
    simp only [List.cons_append, copyScan, ramSize, if_neg (show ¬ d ≥ 65536 by omega),
      if_neg (h b List.mem_cons_self), this, bind_ok, pure_eq_ok]

/-- The ROM ends before a terminator, and before the RAM does: RomFault. -/
theorem copyScan_romFault {bs : List Byte} {d : Nat} (h : NoZero bs) (hd : d + bs.length ≤ 65536) :
    copyScan bs d = .error .romFault := by
  induction bs generalizing d with
  | nil => rfl
  | cons b bs ih =>
    simp only [List.length_cons] at hd
    have := ih (d := d + 1) (fun c hc => h c (List.mem_cons_of_mem _ hc)) (by omega)
    simp only [copyScan, ramSize, if_neg (show ¬ d ≥ 65536 by omega), if_neg (h b List.mem_cons_self), this, bind_error]

/-- The RAM ends before a terminator, and strictly before the ROM does: MemoryFault. -/
theorem copyScan_memoryFault {bs : List Byte} {b : Byte} {rest : List Byte} {d : Nat} (h : NoZero bs)
    (hd : 65536 ≤ d + bs.length) : copyScan (bs ++ b :: rest) d = .error .memoryFault := by
  induction bs generalizing d with
  | nil =>
    simp only [List.length_nil, Nat.add_zero] at hd
    simp only [List.nil_append, copyScan, ramSize, if_pos (show d ≥ 65536 from hd)]
  | cons c bs ih =>
    simp only [List.length_cons] at hd
    have := ih (d := d + 1) (fun c hc => h c (List.mem_cons_of_mem _ hc)) (by omega)
    simp only [List.cons_append, copyScan, ramSize]
    split
    · rfl
    · rw [if_neg (h c List.mem_cons_self), this, bind_error]

theorem copyScan_cases (bs : List Byte) (d : Nat) :
    (∃ out, copyScan bs d = .ok out) ∨ copyScan bs d = .error .romFault ∨ copyScan bs d = .error .memoryFault := by
  induction bs generalizing d with
  | nil => exact .inr (.inl rfl)
  | cons b bs ih =>
    simp only [copyScan]
    split
    · exact .inr (.inr rfl)
    · split
      · exact .inl ⟨_, rfl⟩
      · rcases ih (d + 1) with ⟨out, e⟩ | e | e
        · exact .inl ⟨b :: out, by rw [e]; rfl⟩
        · exact .inr (.inl (by rw [e]; rfl))
        · exact .inr (.inr (by rw [e]; rfl))

end Sys2Proof.Machine
end

