-- ==== Sys2Proof/Laws/Exec.lean ====
section
/-! SUPPORT. The inversion of `exec`, said once: every instruction completes by one of nine kinds of effect, halts, or raises a
fault of its row of rule R207. Invariants and frames are proved from it without unfolding a meaning again. -/

namespace Sys2Proof.Machine

/-- What a completed instruction has done to the state, before the step is counted: one kind of write, and a new `pc`. -/
inductive Effect (s : State) : State → Prop where
  /-- Only `pc`: IDLE, NOP and the jumps. -/
  | control (pc : Word) : Effect s (s.jumpTo pc)
  /-- One register: MOV, the loads and the arithmetic instructions. -/
  | register (d : Fin 32) (v pc : Word) : Effect s ((s.setReg d v).jumpTo pc)
  /-- RAM bytes in bounds: the stores and STORE_STR. -/
  | memory (a : Nat) (bs : List Byte) (pc : Word) (h : a + bs.length ≤ 65536) : Effect s ((s.setRamBytes a bs).jumpTo pc)
  /-- A push below capacity: CALL. -/
  | push (v pc : Word) (h : s.sp ≠ s.cfg.stackCap) :
    Effect s (State.jumpTo { s with stack := writeCell s.stack s.sp v, sp := s.sp + 1 } pc)
  /-- A pop: RETURN. -/
  | pop (pc : Word) (h : s.sp ≠ 0) : Effect s (State.jumpTo { s with sp := s.sp - 1 } pc)
  /-- Console events: the PRINT instructions. -/
  | print (bs : List Byte) (pc : Word) : Effect s ((s.print bs).jumpTo pc)
  /-- The selector: SWAP_BUFFERS. -/
  | swap (pc : Word) : Effect s (State.jumpTo { s with current := 1 - s.current } pc)
  /-- One pixel: DRAW_PIXEL. -/
  | plot (x y : Nat) (c pc : Word) : Effect s ((s.plotBack (x % s.cfg.fbWidth) (y % s.cfg.fbHeight) c).jumpTo pc)
  /-- A cached or decoded image: DRAW_SPRITE. -/
  | draw (a : Word) (img : Sprite) (t : State) (x y : Nat) (pc : Word) (h : s.getSprite a = .ok (img, t)) :
    Effect s ((t.blit x y img).jumpTo pc)

variable (s : State)

/-- How the execution of an instruction `i` can end, apart from HALT. -/
def Ends (faults : List CoreFault) (o : StepOutcome) : Prop :=
  (∃ t, Effect s t ∧ o = .next t.countStep) ∨ ∃ f ∈ faults, o = .next (s.raise f)

theorem ends_of_effect {faults : List CoreFault} {t : State} (h : Effect s t) : Ends s faults (s.complete (.ok t)) :=
  .inl ⟨t, h, rfl⟩

theorem ends_of_fault {faults : List CoreFault} {f : CoreFault} (h : f ∈ faults) : Ends s faults (s.complete (.error f)) :=
  .inr ⟨f, h, rfl⟩

/-! ## The families -/

theorem aluReg_ends (op : Word → Word → Except CoreFault Word) (r1 r2 : Byte) {faults : List CoreFault}
    (hr : .registerFault ∈ faults) (hop : ∀ a b f, op a b = .error f → f ∈ faults) : Ends s faults (s.aluReg op r1 r2) := by
  unfold State.aluReg
  rcases regIndex_cases r1 with ⟨d, -, e1⟩ | ⟨-, e1⟩
  · rcases regIndex_cases r2 with ⟨a, -, e2⟩ | ⟨-, e2⟩
    · simp only [e1, e2, bind_ok]
      cases hv : op (s.reg d) (s.reg a) with
      | ok v => exact ends_of_effect s (.register d v _)
      | error f => exact ends_of_fault s (hop _ _ _ hv)
    · simp only [e1, e2, bind_ok, bind_error]
      exact ends_of_fault s hr
  · simp only [e1, bind_error]
    exact ends_of_fault s hr

theorem aluImm_ends (op : Word → Word → Word) (r : Byte) (imm : Word) {faults : List CoreFault}
    (hr : .registerFault ∈ faults) : Ends s faults (s.aluImm op r imm) := by
  unfold State.aluImm
  rcases regIndex_cases r with ⟨d, -, e⟩ | ⟨-, e⟩
  · simp only [e, bind_ok]
    exact ends_of_effect s (.register d _ _)
  · simp only [e, bind_error]
    exact ends_of_fault s hr

theorem jumpIf_ends (cond : Word → Word → Bool) (r1 r2 : Byte) (addr : Word) {faults : List CoreFault}
    (hr : .registerFault ∈ faults) : Ends s faults (s.jumpIf cond r1 r2 addr) := by
  unfold State.jumpIf
  rcases regIndex_cases r1 with ⟨a, -, e1⟩ | ⟨-, e1⟩
  · rcases regIndex_cases r2 with ⟨b, -, e2⟩ | ⟨-, e2⟩
    · simp only [e1, e2, bind_ok, pure_eq_ok]
      cases cond (s.reg a) (s.reg b) with
      | true => exact ends_of_effect s (.control addr)
      | false => exact ends_of_effect s (.control _)
    · simp only [e1, e2, bind_ok, bind_error]
      exact ends_of_fault s hr
  · simp only [e1, bind_error]
    exact ends_of_fault s hr

theorem execMov_ends (r : Byte) (imm : Word) : Ends s [.registerFault] (execMov r imm s) := by
  unfold execMov
  rcases regIndex_cases r with ⟨d, -, e⟩ | ⟨-, e⟩
  · simp only [e, bind_ok]
    exact ends_of_effect s (.register d imm _)
  · simp only [e, bind_error]
    exact ends_of_fault s (by simp)

/-- A 32-bit load into a register. -/
theorem load_ends (d : Fin 32) (a : Word) (len : Nat) {faults : List CoreFault} (hm : .memoryFault ∈ faults) :
    Ends s faults (s.complete (s.memRead32 a >>= fun v => .ok ((s.setReg d v).fallThrough len))) := by
  by_cases h : a.toNat < 65533
  · rw [s.memRead32_ok h, bind_ok]
    exact ends_of_effect s (.register d _ _)
  · rw [s.memRead32_error (by omega), bind_error]
    exact ends_of_fault s hm

/-- A 32-bit store of a value. -/
theorem store_ends (a v : Word) (len : Nat) {faults : List CoreFault} (hm : .memoryFault ∈ faults) :
    Ends s faults (s.complete (s.memWrite32 a v >>= fun t => .ok (t.fallThrough len))) := by
  by_cases h : a.toNat < 65533
  · rw [s.memWrite32_ok h, bind_ok]
    have : (s.setRamBytes a.toNat (wordBytes v)).fallThrough len =
        (s.setRamBytes a.toNat (wordBytes v)).jumpTo (s.pc + BitVec.ofNat 32 len) := by
      simp [State.fallThrough, State.jumpTo]
    rw [this]
    exact ends_of_effect s (.memory _ _ _ (by rw [wordBytes_length]; omega))
  · rw [s.memWrite32_error (by omega), bind_error]
    exact ends_of_fault s hm

theorem execStoreI_ends (r : Byte) (addr : Word) : Ends s [.registerFault, .memoryFault] (execStoreI r addr s) := by
  unfold execStoreI
  rcases regIndex_cases r with ⟨d, -, e⟩ | ⟨-, e⟩
  · simp only [e, bind_ok]
    exact store_ends s _ _ _ (by simp)
  · simp only [e, bind_error]
    exact ends_of_fault s (by simp)

theorem execLoadI_ends (r : Byte) (addr : Word) : Ends s [.registerFault, .memoryFault] (execLoadI r addr s) := by
  unfold execLoadI
  rcases regIndex_cases r with ⟨d, -, e⟩ | ⟨-, e⟩
  · simp only [e, bind_ok]
    exact load_ends s _ _ _ (by simp)
  · simp only [e, bind_error]
    exact ends_of_fault s (by simp)

theorem execStore_ends (r1 r2 : Byte) : Ends s [.registerFault, .memoryFault] (execStore r1 r2 s) := by
  unfold execStore
  rcases regIndex_cases r1 with ⟨v, -, e1⟩ | ⟨-, e1⟩
  · rcases regIndex_cases r2 with ⟨a, -, e2⟩ | ⟨-, e2⟩
    · simp only [e1, e2, bind_ok]
      exact store_ends s _ _ _ (by simp)
    · simp only [e1, e2, bind_ok, bind_error]
      exact ends_of_fault s (by simp)
  · simp only [e1, bind_error]
    exact ends_of_fault s (by simp)

theorem execLoad_ends (r1 r2 : Byte) : Ends s [.registerFault, .memoryFault] (execLoad r1 r2 s) := by
  unfold execLoad
  rcases regIndex_cases r1 with ⟨d, -, e1⟩ | ⟨-, e1⟩
  · rcases regIndex_cases r2 with ⟨a, -, e2⟩ | ⟨-, e2⟩
    · simp only [e1, e2, bind_ok]
      exact load_ends s _ _ _ (by simp)
    · simp only [e1, e2, bind_ok, bind_error]
      exact ends_of_fault s (by simp)
  · simp only [e1, bind_error]
    exact ends_of_fault s (by simp)

theorem execCall_ends (addr : Word) : Ends s [.stackFault] (execCall addr s) := by
  unfold execCall
  by_cases h : s.sp = s.cfg.stackCap
  · rw [s.push_error h, bind_error]
    exact ends_of_fault s (by simp)
  · rw [s.push_ok h, bind_ok]
    exact ends_of_effect s (.push _ addr h)

theorem execRet_ends : Ends s [.stackFault] (execRet s) := by
  unfold execRet
  by_cases h : s.sp = 0
  · rw [s.pop_error h, bind_error]
    exact ends_of_fault s (by simp)
  · rw [s.pop_ok h, bind_ok]
    exact ends_of_effect s (.pop _ h)

theorem execStoreStr_ends (src dst : Word) : Ends s [.romFault, .memoryFault] (execStoreStr src dst s) := by
  unfold execStoreStr
  rcases copyScan_cases (s.rom.drop src.toNat) dst.toNat with ⟨bs, e⟩ | e | e
  · rw [e, bind_ok]
    have : (s.setRamBytes dst.toNat bs).fallThrough 9 = (s.setRamBytes dst.toNat bs).jumpTo (s.pc + BitVec.ofNat 32 9) := by
      simp [State.fallThrough, State.jumpTo]
    rw [this]
    exact ends_of_effect s (.memory _ _ _ (copyScan_fits e))
  · rw [e, bind_error]
    exact ends_of_fault s (by simp)
  · rw [e, bind_error]
    exact ends_of_fault s (by simp)

theorem execPrintMem_ends (addr : Word) : Ends s [.memoryFault] (execPrintMem addr s) := by
  unfold execPrintMem
  rcases s.memString_cases addr.toNat with ⟨bs, e⟩ | e
  · rw [e, bind_ok]
    exact ends_of_effect s (.print bs _)
  · rw [e, bind_error]
    exact ends_of_fault s (by simp)

theorem execPrintRom_ends (addr : Word) : Ends s [.romFault] (execPrintRom addr s) := by
  unfold execPrintRom
  rcases romString_cases s.rom addr.toNat with ⟨bs, e⟩ | e
  · rw [e, bind_ok]
    exact ends_of_effect s (.print bs _)
  · rw [e, bind_error]
    exact ends_of_fault s (by simp)

theorem execDrawPixel_ends (xr yr : Byte) (c : Word) : Ends s [.registerFault] (execDrawPixel xr yr c s) := by
  unfold execDrawPixel
  rcases regIndex_cases xr with ⟨a, -, e1⟩ | ⟨-, e1⟩
  · rcases regIndex_cases yr with ⟨b, -, e2⟩ | ⟨-, e2⟩
    · simp only [e1, e2, bind_ok]
      exact ends_of_effect s (.plot _ _ c _)
    · simp only [e1, e2, bind_ok, bind_error]
      exact ends_of_fault s (by simp)
  · simp only [e1, bind_error]
    exact ends_of_fault s (by simp)

theorem execDrawSprite_ends (xr yr : Byte) (addr : Word) : Ends s [.registerFault, .romFault] (execDrawSprite xr yr addr s) := by
  unfold execDrawSprite
  rcases regIndex_cases xr with ⟨a, -, e1⟩ | ⟨-, e1⟩
  · rcases regIndex_cases yr with ⟨b, -, e2⟩ | ⟨-, e2⟩
    · simp only [e1, e2, bind_ok]
      rcases s.getSprite_cases addr with ⟨img, -, e⟩ | ⟨img, -, -, e⟩ | ⟨-, -, e⟩
      · rw [e, bind_ok]
        exact ends_of_effect s (.draw addr img _ _ _ _ e)
      · rw [e, bind_ok]
        exact ends_of_effect s (.draw addr img _ _ _ _ e)
      · rw [e, bind_error]
        exact ends_of_fault s (by simp)
    · simp only [e1, e2, bind_ok, bind_error]
      exact ends_of_fault s (by simp)
  · simp only [e1, bind_error]
    exact ends_of_fault s (by simp)

/-- Every instruction but HALT completes by an effect or raises a fault of its row of rule R207. -/
theorem exec_ends (i : Instr) (h : i ≠ .halt) : Ends s (mayRaise i) (exec i s) := by
  cases i with
  | idle => exact ends_of_effect s (.control s.pc)
  | mov r v => exact execMov_ends s r v
  | storeI r a => exact execStoreI_ends s r a
  | loadI r a => exact execLoadI_ends s r a
  | store r1 r2 => exact execStore_ends s r1 r2
  | load r1 r2 => exact execLoad_ends s r1 r2
  | add r1 r2 =>
    exact aluReg_ends s (fun a b => .ok (a + b)) r1 r2 (faults := [.registerFault]) (by simp) (fun _ _ _ e => by cases e)
  | addI r v => exact aluImm_ends s _ r v (by simp [mayRaise])
  | sub r1 r2 =>
    exact aluReg_ends s (fun a b => .ok (a - b)) r1 r2 (faults := [.registerFault]) (by simp) (fun _ _ _ e => by cases e)
  | subI r v => exact aluImm_ends s _ r v (by simp [mayRaise])
  | mul r1 r2 =>
    exact aluReg_ends s (fun a b => .ok (a * b)) r1 r2 (faults := [.registerFault]) (by simp) (fun _ _ _ e => by cases e)
  | div r1 r2 =>
    refine aluReg_ends s _ r1 r2 (by simp [mayRaise]) fun a b f e => ?_
    unfold quotient at e
    split at e
    · cases e
      simp [mayRaise]
    · cases e
  | jmp a => exact ends_of_effect s (.control a)
  | jeq r1 r2 a => exact jumpIf_ends s _ r1 r2 a (by simp [mayRaise])
  | jne r1 r2 a => exact jumpIf_ends s _ r1 r2 a (by simp [mayRaise])
  | storeStr a b => exact execStoreStr_ends s a b
  | printMem a => exact execPrintMem_ends s a
  | printRom a => exact execPrintRom_ends s a
  | call a => exact execCall_ends s a
  | ret => exact execRet_ends s
  | swapBuffers => exact ends_of_effect s (.swap _)
  | drawPixel r1 r2 c => exact execDrawPixel_ends s r1 r2 c
  | drawSprite r1 r2 a => exact execDrawSprite_ends s r1 r2 a
  | jgt r1 r2 a => exact jumpIf_ends s _ r1 r2 a (by simp [mayRaise])
  | nop op => exact ends_of_effect s (.control _)
  | halt => exact absurd rfl h

theorem exec_halt : exec .halt s = .next { s.fallThrough 1 with status := .halted } := rfl

/-! ## What every effect leaves alone -/

/-- A cache access changes the cache at most. -/
theorem State.getSprite_state {a : Word} {img : Sprite} {t : State} (h : s.getSprite a = .ok (img, t)) :
    t = { s with scache := t.scache } := by
  rcases s.getSprite_cases a with ⟨_, -, e⟩ | ⟨_, -, -, e⟩ | ⟨-, -, e⟩ <;> rw [e] at h <;> cases h <;> rfl

theorem Effect.fixed {s t : State} (h : Effect s t) :
    t.cfg = s.cfg ∧ t.rom = s.rom ∧ t.steps = s.steps ∧ t.status = s.status ∧ t.faultCause = s.faultCause := by
  cases h with
  | memory a bs pc _ => simp
  | draw a img t x y pc h =>
    have ht := s.getSprite_state h
    simp only [State.jumpTo_cfg, State.jumpTo_rom, State.jumpTo_steps, State.jumpTo_status, State.jumpTo_faultCause,
      State.blit_cfg, State.blit_rom, State.blit_steps, State.blit_status, State.blit_faultCause]
    rw [ht]
    exact ⟨rfl, rfl, rfl, rfl, rfl⟩
  | _ => exact ⟨rfl, rfl, rfl, rfl, rfl⟩

end Sys2Proof.Machine
end

