-- ==== Sys2Proof/Laws/Fetch.lean ====
section
/-! SUPPORT. What fetch reads (rules R120 to R122), and the one inversion of the step: it is stopped, it raises RomFault, or it
executes a decoded instruction. -/

namespace Sys2Proof.Machine

/-! ## The fetch window -/

theorem add_ofNat_toNat (a : Word) (k : Nat) : (a + BitVec.ofNat 32 k).toNat = (a.toNat + k) % 4294967296 := by
  simp [BitVec.toNat_add]

/-- A ROM that holds `bs` from `a` on, addresses modulo 2^32, has `bs` at the head of the window. -/
theorem fetchWindow_of_bytes {rom : List Byte} (n : Nat) (a : Word) (bs : List Byte) (hn : bs.length ≤ n)
    (h : ∀ k (hk : k < bs.length), rom[(a.toNat + k) % 4294967296]? = some bs[k]) :
    ∃ rest, fetchWindow rom n a = bs ++ rest := by
  induction bs generalizing n a with
  | nil => exact ⟨_, rfl⟩
  | cons b bs ih =>
    simp only [List.length_cons] at hn
    obtain ⟨m, rfl⟩ : ∃ m, n = m + 1 := ⟨n - 1, by omega⟩
    have h0 := h 0 (by simp)
    rw [Nat.add_zero, Nat.mod_eq_of_lt a.isLt, List.getElem_cons_zero] at h0
    obtain ⟨rest, e⟩ := ih m (a + 1) (by omega) fun k hk => by
      have := h (k + 1) (by simpa using hk)
      rw [List.getElem_cons_succ] at this
      rw [← this]
      congr 1
      rw [show (1 : Word) = BitVec.ofNat 32 1 from rfl, add_ofNat_toNat]
      omega
    exact ⟨rest, by simp only [fetchWindow, h0, e, List.cons_append]⟩

/-- Every byte of the window is the ROM byte at its address. -/
theorem fetchWindow_getElem? (rom : List Byte) (n : Nat) (a : Word) (k : Nat) (hk : k < (fetchWindow rom n a).length) :
    rom[(a.toNat + k) % 4294967296]? = (fetchWindow rom n a)[k]? := by
  induction n generalizing a k with
  | zero => simp [fetchWindow] at hk
  | succ n ih =>
    simp only [fetchWindow] at hk ⊢
    split at hk
    next b hb =>
      cases k with
      | zero => simp [Nat.mod_eq_of_lt a.isLt, hb]
      | succ k =>
        have := ih (a + 1) k (by simpa using hk)
        rw [show (1 : Word) = BitVec.ofNat 32 1 from rfl, add_ofNat_toNat] at this
        rw [show (a.toNat + (k + 1)) % 4294967296 = ((a.toNat + 1) % 4294967296 + k) % 4294967296 by omega, this]
        rfl
    · simp at hk

theorem fetchWindow_length_le (rom : List Byte) (n : Nat) (a : Word) : (fetchWindow rom n a).length ≤ n := by
  induction n generalizing a with
  | zero => simp [fetchWindow]
  | succ n ih =>
    simp only [fetchWindow]
    split
    · have := ih (a + 1)
      simp only [List.length_cons]
      omega
    · simp

/-- A missing byte ends the window before it. -/
theorem fetchWindow_length_of_missing {rom : List Byte} (n : Nat) (a : Word) (k : Nat)
    (h : rom[(a.toNat + k) % 4294967296]? = none) : (fetchWindow rom n a).length ≤ k := by
  by_contra hk
  have hk' : k < (fetchWindow rom n a).length := by omega
  rw [fetchWindow_getElem? rom n a k hk', List.getElem?_eq_getElem hk'] at h
  cases h

theorem fetchWindow_eq_nil {rom : List Byte} {n : Nat} {a : Word} (h : rom.length ≤ a.toNat) : fetchWindow rom n a = [] := by
  cases n with
  | zero => rfl
  | succ n => simp [fetchWindow, List.getElem?_eq_none h]

theorem fetchWindow_cons {rom : List Byte} {n : Nat} {a : Word} {b : Byte} (h : rom[a.toNat]? = some b) :
    fetchWindow rom (n + 1) a = b :: fetchWindow rom n (a + 1) := by
  simp [fetchWindow, h]

/-! ## A placed instruction -/

theorem romPut_same (rom : List Byte) (a : Nat) (b : Byte) : (romPut rom a b)[a]? = some b := by
  unfold romPut
  split
  · simp [*]
  · have hl : (rom ++ List.replicate (a - rom.length) (0 : Byte)).length = a := by
      simp
      omega
    rw [List.getElem?_append_right (by omega), hl]
    simp

theorem romPut_other {rom : List Byte} {a c : Nat} (b : Byte) {x : Byte} (h : c ≠ a) (hx : rom[c]? = some x) :
    (romPut rom a b)[c]? = some x := by
  unfold romPut
  split
  · rw [List.getElem?_set_ne (Ne.symm h), hx]
  · have hc : c < rom.length := by
      by_contra hc
      rw [List.getElem?_eq_none (by omega)] at hx
      cases hx
    rw [List.append_assoc, List.getElem?_append_left hc, hx]

theorem romPutBytes_other {rom : List Byte} (a : Word) (bs : List Byte) {c : Nat} {x : Byte} (hx : rom[c]? = some x)
    (h : ∀ k, k < bs.length → c ≠ (a.toNat + k) % 4294967296) : (romPutBytes rom a bs)[c]? = some x := by
  induction bs generalizing rom a with
  | nil => exact hx
  | cons b bs ih =>
    have h0 : c ≠ a.toNat := by
      have := h 0 (by simp)
      rwa [Nat.add_zero, Nat.mod_eq_of_lt a.isLt] at this
    refine ih (a + 1) (romPut_other b h0 hx) fun k hk => ?_
    have := h (k + 1) (by simpa using hk)
    rw [show (1 : Word) = BitVec.ofNat 32 1 from rfl, add_ofNat_toNat]
    omega

/-- The bytes placed from `a` on are where fetch reads them. -/
theorem romPutBytes_get (rom : List Byte) (a : Word) (bs : List Byte) (hl : bs.length < 4294967296) (k : Nat)
    (hk : k < bs.length) : (romPutBytes rom a bs)[(a.toNat + k) % 4294967296]? = some bs[k] := by
  induction bs generalizing rom a k with
  | nil => simp at hk
  | cons b bs ih =>
    simp only [List.length_cons] at hl hk
    have e1 : (a + 1).toNat = (a.toNat + 1) % 4294967296 := by
      rw [show (1 : Word) = BitVec.ofNat 32 1 from rfl, add_ofNat_toNat]
    cases k with
    | zero =>
      rw [Nat.add_zero, Nat.mod_eq_of_lt a.isLt]
      refine romPutBytes_other (a + 1) bs (romPut_same _ _ _) fun k hk' => ?_
      have := a.isLt
      rw [e1]
      omega
    | succ k =>
      have := ih (romPut rom a.toNat b) (a + 1) (by omega) k (by omega)
      rw [e1] at this
      rw [show (a.toNat + (k + 1)) % 4294967296 = ((a.toNat + 1) % 4294967296 + k) % 4294967296 by omega]
      exact this

/-! ## Fetch and step -/

variable (s : State)

theorem State.fetch_of_decode {i : Instr} {rest : List Byte} (hs : s.status = .run)
    (h : decode (fetchWindow s.rom 9 s.pc) = .instr i rest) : s.fetch = .instr i := by
  simp only [State.fetch, hs, h]

/-- A one-byte instruction needs its opcode byte only. -/
theorem State.fetch_of_opcode {i : Instr} {op : Byte} (hs : s.status = .run) (h : s.rom[s.pc.toNat]? = some op)
    (hi : ∀ bs, decodeOpcode op bs = .instr i bs) : s.fetch = .instr i :=
  s.fetch_of_decode hs (rest := fetchWindow s.rom 8 (s.pc + 1)) (by rw [fetchWindow_cons h]; exact hi _)

theorem State.fetch_of_stopped (h : s.Stopped) : s.fetch = .stopped := by
  unfold State.fetch
  rcases h with h | h
  · cases hs : s.status with
    | run => exact absurd hs h
    | halted => rfl
    | faulted => rfl
  · rw [fetchWindow_eq_nil h]
    cases s.status <;> rfl

theorem step_of_instr {i : Instr} (h : s.fetch = .instr i) : step s = exec i s := by simp only [step, h]

theorem step_of_stopped (h : s.Stopped) : step s = .next s := by simp only [step, s.fetch_of_stopped h]

/-- The step, taken apart once: a stopped core, a truncated instruction, or the execution of one decoded instruction by a running
core whose `pc` is below ROM_SIZE. -/
theorem step_cases :
    (s.Stopped ∧ s.fetch = .stopped ∧ step s = .next s) ∨
    (s.status = .run ∧ s.pc.toNat < s.romSize ∧ s.fetch = .truncated ∧ step s = .next (s.raise .romFault)) ∨
    (∃ i rest, s.status = .run ∧ s.pc.toNat < s.romSize ∧ decode (fetchWindow s.rom 9 s.pc) = .instr i rest ∧
      s.fetch = .instr i ∧ step s = exec i s) := by
  by_cases hst : s.Stopped
  · exact .inl ⟨hst, s.fetch_of_stopped hst, step_of_stopped s hst⟩
  · simp only [State.Stopped, State.romSize, not_or, not_not, Nat.not_le] at hst
    obtain ⟨hrun, hpc⟩ := hst
    cases hd : decode (fetchWindow s.rom 9 s.pc) with
    | instr i rest =>
      have hf := s.fetch_of_decode hrun hd
      exact .inr (.inr ⟨i, rest, hrun, hpc, rfl, hf, step_of_instr s hf⟩)
    | noOpcode =>
      exfalso
      have : fetchWindow s.rom 9 s.pc = s.rom[s.pc.toNat] :: fetchWindow s.rom 8 (s.pc + 1) :=
        fetchWindow_cons (List.getElem?_eq_getElem hpc)
      rw [this] at hd
      exact decodeOpcode_ne_noOpcode _ _ hd
    | truncated =>
      have hf : s.fetch = .truncated := by simp only [State.fetch, hrun, hd]
      exact .inr (.inl ⟨hrun, hpc, hf, by simp only [step, hf]⟩)

/-! ## The answer of a step -/

theorem State.cont_of_stopped (h : s.Stopped) : s.cont = false := by simp only [State.cont, s.fetch_of_stopped h]

theorem State.cont_of_instr {i : Instr} {t : State} (h : s.fetch = .instr i) (he : exec i s = .next t) :
    s.cont = decide (t.status = .run) := by
  simp only [State.cont, h, step_of_instr s h, he]

theorem State.cont_of_truncated (h : s.fetch = .truncated) : s.cont = false := by simp only [State.cont, h]

end Sys2Proof.Machine
end

