-- ==== Sys2Proof/Laws/Frames.lean ====
section
/-! SUPPORT. What a completed register write and a completed 32-bit store leave unchanged, the one inversion of a step by its
kind of effect, the induction over runs, and runs of instruction lists. -/

namespace Sys2Proof.Machine

variable (s : State)

/-- Two register operands of which one is bad: the first check that fails raises RegisterFault. -/
theorem regIndex_pair_error {r1 r2 : Byte} (h : 32 ≤ r1.toNat ∨ 32 ≤ r2.toNat) :
    regIndex r1 = .error .registerFault ∨ ∃ d, regIndex r1 = .ok d ∧ regIndex r2 = .error .registerFault := by
  rcases regIndex_cases r1 with ⟨d, hd, e⟩ | ⟨-, e⟩
  · have := d.isLt
    exact .inr ⟨d, e, regIndex_error (by omega)⟩
  · exact .inl e

/-- A completed write of one register by an instruction of `n` bytes. -/
theorem register_write_frame (d : Fin 32) (v : Word) (n : Nat) {t : State} (ht : t = ((s.setReg d v).fallThrough n).countStep) :
    t.reg d = v ∧ (∀ j, j ≠ d → t.reg j = s.reg j) ∧ t.pc = s.pc + BitVec.ofNat 32 n ∧ t.steps = s.steps + 1 ∧
      UnchangedBut [.regs, .pc, .steps] s t := by
  subst ht
  refine ⟨s.reg_setReg_same d v, fun j hj => s.reg_setReg_other v hj, rfl, rfl, fun p hp => ?_⟩
  cases p <;> first | (exfalso; simp at hp; done) | (intro i; rfl) | (intro i j k; rfl) | exact rfl

/-- A completed store of the bytes `bs` by an instruction of `n` bytes. -/
theorem memory_write_frame (a : Nat) (bs : List Byte) (n : Nat) {t : State}
    (ht : t = ((s.setRamBytes a bs).fallThrough n).countStep) :
    (∀ k (h : k < bs.length), t.ramAt (a + k) = bs[k]) ∧ (∀ b, b < a ∨ a + bs.length ≤ b → t.ramAt b = s.ramAt b) ∧
      t.pc = s.pc + BitVec.ofNat 32 n ∧ t.steps = s.steps + 1 ∧ UnchangedBut [.ram, .pc, .steps] s t := by
  subst ht
  refine ⟨s.ramAt_setRamBytes_inside a bs, s.ramAt_setRamBytes_outside a bs, by simp, by simp, fun p hp => ?_⟩
  cases p <;> first
    | (exfalso; simp at hp; done)
    | simp [SamePart, State.reg, State.stackAt, State.pixel, State.pixelIndex, State.cached]

/-- What a step can do, said once: nothing, a fault, HALT, or one completed effect of a running core. -/
theorem step_effect {t : State} (h : step s = .next t) :
    t = s ∨ (s.status = .run ∧ ∃ f, t = s.raise f) ∨ (s.status = .run ∧ t = { s.fallThrough 1 with status := .halted }) ∨
      (s.status = .run ∧ ∃ u, Effect s u ∧ t = u.countStep) := by
  rcases step_cases s with ⟨_, -, e⟩ | ⟨hr, -, -, e⟩ | ⟨i, rest, hr, -, -, -, e⟩ <;> rw [e] at h
  · cases h
    exact .inl rfl
  · cases h
    exact .inr (.inl ⟨hr, _, rfl⟩)
  · by_cases hi : i = .halt
    · subst hi
      cases h
      exact .inr (.inr (.inl ⟨hr, rfl⟩))
    · rcases exec_ends s i hi with ⟨u, he, e⟩ | ⟨f, -, e⟩ <;> rw [e] at h <;> cases h
      · exact .inr (.inr (.inr ⟨hr, u, he, rfl⟩))
      · exact .inr (.inl ⟨hr, f, rfl⟩)

/-- The one induction over runs: what every step keeps, every run keeps. -/
theorem run_keeps {P : State → Prop} (hstep : ∀ s t, P s → step s = .next t → P t) (n : Nat) {t : State} (hs : P s)
    (h : Host.Core.run core n s = .next t) : P t := by
  induction n generalizing s with
  | zero =>
    cases h
    exact hs
  | succ n ih =>
    have hcore : core.step s = step s := rfl
    simp only [Host.Core.run, hcore] at h
    cases e : step s with
    | next u =>
      rw [e] at h
      exact ih u (hstep s u hs e) h
    | fault f => cases f
    | refused r =>
      rw [e] at h
      cases h

/-- A list of instructions that ends in a next state, followed by another list. -/
theorem execAll_append {is : List Instr} (js : List Instr) {t : State} (h : execAll is s = .next t) :
    execAll (is ++ js) s = execAll js t := by
  induction is generalizing s with
  | nil =>
    cases h
    rfl
  | cons i is ih =>
    simp only [List.cons_append, execAll] at h ⊢
    cases e : exec i s with
    | next u =>
      rw [e] at h
      exact ih u h
    | fault f =>
      rw [e] at h
      cases h
    | refused r =>
      rw [e] at h
      cases h

end Sys2Proof.Machine
end

