-- ==== Sys2Proof/Laws/PerInstr.lean ====
section
/-! SUPPORT. One lemma per instruction about its encoding as syntax: the opcode byte comes first, the length is the one the opcode
byte selects (rules R90, R91, R95). -/

namespace Sys2Proof.Laws.EncodeShape

open Sys2Proof

/-- A well-formed instruction is encoded as its opcode byte and then its register and value bytes, in as many bytes as its opcode
fixes, at most 9. -/
def Statement (i : Instr) : Prop :=
  i.wellFormed = true → (encode i).head? = some i.opcode ∧ (encode i).length = i.length ∧ i.length ≤ maxInstrLength

theorem idle : Statement .idle := fun _ => ⟨rfl, rfl, Nat.le_of_ble_eq_true rfl⟩

theorem mov (r : Byte) (v : Word) : Statement (.mov r v) := fun _ => ⟨rfl, rfl, Nat.le_of_ble_eq_true rfl⟩

theorem storeI (r : Byte) (v : Word) : Statement (.storeI r v) := fun _ => ⟨rfl, rfl, Nat.le_of_ble_eq_true rfl⟩

theorem loadI (r : Byte) (v : Word) : Statement (.loadI r v) := fun _ => ⟨rfl, rfl, Nat.le_of_ble_eq_true rfl⟩

theorem store (r1 r2 : Byte) : Statement (.store r1 r2) := fun _ => ⟨rfl, rfl, Nat.le_of_ble_eq_true rfl⟩

theorem load (r1 r2 : Byte) : Statement (.load r1 r2) := fun _ => ⟨rfl, rfl, Nat.le_of_ble_eq_true rfl⟩

theorem add (r1 r2 : Byte) : Statement (.add r1 r2) := fun _ => ⟨rfl, rfl, Nat.le_of_ble_eq_true rfl⟩

theorem addI (r : Byte) (v : Word) : Statement (.addI r v) := fun _ => ⟨rfl, rfl, Nat.le_of_ble_eq_true rfl⟩

theorem sub (r1 r2 : Byte) : Statement (.sub r1 r2) := fun _ => ⟨rfl, rfl, Nat.le_of_ble_eq_true rfl⟩

theorem subI (r : Byte) (v : Word) : Statement (.subI r v) := fun _ => ⟨rfl, rfl, Nat.le_of_ble_eq_true rfl⟩

theorem mul (r1 r2 : Byte) : Statement (.mul r1 r2) := fun _ => ⟨rfl, rfl, Nat.le_of_ble_eq_true rfl⟩

theorem div (r1 r2 : Byte) : Statement (.div r1 r2) := fun _ => ⟨rfl, rfl, Nat.le_of_ble_eq_true rfl⟩

theorem jmp (v : Word) : Statement (.jmp v) := fun _ => ⟨rfl, rfl, Nat.le_of_ble_eq_true rfl⟩

theorem jeq (r1 r2 : Byte) (v : Word) : Statement (.jeq r1 r2 v) := fun _ => ⟨rfl, rfl, Nat.le_of_ble_eq_true rfl⟩

theorem jne (r1 r2 : Byte) (v : Word) : Statement (.jne r1 r2 v) := fun _ => ⟨rfl, rfl, Nat.le_of_ble_eq_true rfl⟩

theorem storeStr (a b : Word) : Statement (.storeStr a b) := fun _ => ⟨rfl, rfl, Nat.le_of_ble_eq_true rfl⟩

theorem printMem (v : Word) : Statement (.printMem v) := fun _ => ⟨rfl, rfl, Nat.le_of_ble_eq_true rfl⟩

theorem printRom (v : Word) : Statement (.printRom v) := fun _ => ⟨rfl, rfl, Nat.le_of_ble_eq_true rfl⟩

theorem call (v : Word) : Statement (.call v) := fun _ => ⟨rfl, rfl, Nat.le_of_ble_eq_true rfl⟩

theorem ret : Statement .ret := fun _ => ⟨rfl, rfl, Nat.le_of_ble_eq_true rfl⟩

theorem swapBuffers : Statement .swapBuffers := fun _ => ⟨rfl, rfl, Nat.le_of_ble_eq_true rfl⟩

theorem drawPixel (r1 r2 : Byte) (v : Word) : Statement (.drawPixel r1 r2 v) := fun _ => ⟨rfl, rfl, Nat.le_of_ble_eq_true rfl⟩

theorem drawSprite (r1 r2 : Byte) (v : Word) : Statement (.drawSprite r1 r2 v) := fun _ => ⟨rfl, rfl, Nat.le_of_ble_eq_true rfl⟩

theorem jgt (r1 r2 : Byte) (v : Word) : Statement (.jgt r1 r2 v) := fun _ => ⟨rfl, rfl, Nat.le_of_ble_eq_true rfl⟩

theorem nop (op : Byte) : Statement (.nop op) := by
  intro h
  have hop : UnrecognisedOpcode op := by simpa [Instr.wellFormed] using h
  have hl : (Instr.nop op).length = 1 := opcodeLength_unrecognised hop
  exact ⟨rfl, hl.symm, by rw [hl]; decide⟩

theorem halt : Statement .halt := fun _ => ⟨rfl, rfl, Nat.le_of_ble_eq_true rfl⟩

end Sys2Proof.Laws.EncodeShape
end

