-- ==== Sys2Proof/Tests/Slice0.lean ====
section
/-! SUPPORT. The author's own tests. Every expected value is written out from the spec: the encodings of rules R91 and R94 and the
worked examples of the instruction rules. The last part gives, for every obligation with hypotheses, operands and states that meet
them, at the boundary values of its clauses. -/

namespace Sys2Proof.Machine.Tests

/-! ## Helpers -/

/-- A core with a call stack of two entries and surfaces of four by two pixels, right after LoadRom. -/
def start (rom : List Byte) : State :=
  { State.resetWith { stackCap := 2, fbWidth := 4, fbHeight := 2 } with rom := rom }

/-- A core with two registers set. -/
def withRegs (s : State) (a : Fin 32) (v : Word) (b : Fin 32) (w : Word) : State := (s.setReg a v).setReg b w

/-- The state after one step. -/
def after (s : State) : State :=
  match step s with
  | .next t => t
  | .fault _ | .refused _ => s

/-- What a fault test looks at. -/
def verdict (s : State) : Status × Option CoreFault × Word × Word :=
  ((after s).status, (after s).faultCause, (after s).pc, (after s).steps)

/-! ## WellFormed refuses each ill-formed term -/

theorem test_wf_nop_below : Instr.wellFormed (.nop 0x17) = false := by decide
theorem test_wf_nop_zero : Instr.wellFormed (.nop 0x00) = false := by decide
theorem test_wf_nop_above : Instr.wellFormed (.nop 0xFF) = false := by decide
theorem test_wf_nop_ends : Instr.wellFormed (.nop 0x18) = true ∧ Instr.wellFormed (.nop 0xFE) = true := by decide
theorem test_wf_register_byte : Instr.wellFormed (.mov 255 0) = true := by decide

/-! ## Decoding (words from rules R91, R94 and the examples of the instruction rules) -/

theorem test_decode_f0 : decode [0x00] = .instr .idle [] ∧ decode [0x13, 0x14] = .instr .ret [0x14] ∧
    decode [0x14] = .instr .swapBuffers [] ∧ decode [0xFF] = .instr .halt [] ∧ decode [0x18] = .instr (.nop 0x18) [] ∧
    decode [0xFE, 0x00] = .instr (.nop 0xFE) [0x00] := by decide
theorem test_decode_f1 : decode [0x01, 0x00, 0x00, 0x00, 0x00, 0x05] = .instr (.mov 0 5) [] ∧
    decode [0x02, 0x1F, 0x12, 0x34, 0x56, 0x78] = .instr (.storeI 31 0x12345678) [] ∧
    decode [0x03, 0x05, 0x00, 0x00, 0x01, 0x00] = .instr (.loadI 5 0x100) [] ∧
    decode [0x07, 0x01, 0x00, 0x00, 0x00, 0x02] = .instr (.addI 1 2) [] ∧
    decode [0x09, 0x02, 0x00, 0x00, 0x00, 0x01] = .instr (.subI 2 1) [] := by decide
theorem test_decode_f2 : decode [0x04, 0x01, 0x02] = .instr (.store 1 2) [] ∧ decode [0x05, 0x04, 0x02] = .instr (.load 4 2) [] ∧
    decode [0x06, 0x00, 0x01] = .instr (.add 0 1) [] ∧ decode [0x08, 0x00, 0x01] = .instr (.sub 0 1) [] ∧
    decode [0x0A, 0x00, 0x01] = .instr (.mul 0 1) [] ∧ decode [0x0B, 0x00, 0x01] = .instr (.div 0 1) [] := by decide
theorem test_decode_f3 : decode [0x0C, 0x00, 0x00, 0x00, 0x12] = .instr (.jmp 0x12) [] ∧
    decode [0x10, 0x00, 0x00, 0x02, 0x00] = .instr (.printMem 0x200) [] ∧
    decode [0x11, 0x00, 0x00, 0x00, 0x06] = .instr (.printRom 6) [] ∧
    decode [0x12, 0x00, 0x00, 0x00, 0x0B] = .instr (.call 0x0B) [] := by decide
theorem test_decode_f4 : decode [0x0D, 0x00, 0x01, 0x00, 0x00, 0x00, 0x40] = .instr (.jeq 0 1 0x40) [] ∧
    decode [0x0E, 0x00, 0x01, 0x00, 0x00, 0x00, 0x40] = .instr (.jne 0 1 0x40) [] ∧
    decode [0x17, 0x01, 0x02, 0x00, 0x00, 0x00, 0x27] = .instr (.jgt 1 2 0x27) [] ∧
    decode [0x15, 0x00, 0x01, 0xFF, 0x00, 0x00, 0xFF] = .instr (.drawPixel 0 1 0xFF0000FF) [] ∧
    decode [0x16, 0x00, 0x01, 0x00, 0x00, 0x00, 0x2F] = .instr (.drawSprite 0 1 0x2F) [] := by decide
theorem test_decode_f5 : decode [0x0F, 0x00, 0x00, 0x00, 0x15, 0x00, 0x00, 0x02, 0x00] = .instr (.storeStr 0x15 0x200) [] := by
  decide
theorem test_decode_refuses : decode [] = .noOpcode ∧ decode [0x01, 0, 0, 0, 0] = .truncated ∧ decode [0x04, 0] = .truncated ∧
    decode [0x0C] = .truncated ∧ decode [0x17, 0, 0, 0, 0, 0] = .truncated ∧
    decode [0x0F, 0, 0, 0, 0, 0, 0, 0] = .truncated := by decide
/-- The bytes 06 02 01 and 0C, numbered as log entry 12 says. -/
theorem test_table_word : decodeTableWord 24 0x010206 = some (.add 2 1) ∧ decodeTableWord 8 0x0C = some (.jmp 0) := by decide

/-! ## One step of each instruction (the examples of the instruction rules) -/

theorem test_idle : (after (start [0x00, 0xFF])).pc = 0 ∧ (after (start [0x00, 0xFF])).steps = 1 ∧
    (start [0x00, 0xFF]).cont = true := by decide
theorem test_halt : verdict (start [0xFF]) = (.halted, none, 1, 0) ∧ (start [0xFF]).cont = false := by decide
theorem test_nop : verdict (start [0x48, 0x49, 0xFF]) = (.run, none, 1, 1) := by decide
theorem test_mov : (after (start [0x01, 0, 0, 0, 0, 5])).reg 0 = 5 ∧ (after (start [0x01, 0, 0, 0, 0, 5])).pc = 6 := by decide
theorem test_storeI : (after (withRegs (start [0x02, 0, 0, 0, 1, 0]) 0 0x37 1 0)).ram = [(0x103, 0x37)] := by decide
theorem test_loadI :
    (after ((start [0x03, 5, 0, 0, 1, 0]).setRamBytes 0x100 [0xDE, 0xAD, 0xBE, 0xEF])).reg 5 = 0xDEADBEEF := by decide
theorem test_store : (after (withRegs (start [0x04, 1, 2]) 1 0xCAFEBABE 2 0x10)).ram =
    [(0x10, 0xCA), (0x11, 0xFE), (0x12, 0xBA), (0x13, 0xBE)] := by decide
theorem test_store_high : verdict (withRegs (start [0x04, 1, 2]) 1 7 2 0xFFFD) = (.faulted, some .memoryFault, 0, 0) := by decide
theorem test_load_same : (after (((start [0x05, 3, 3]).setRamBytes 0x20 [0, 0, 1, 0]).setReg 3 0x20)).reg 3 = 0x100 := by decide
theorem test_add : (after (withRegs (start [0x06, 0, 1]) 0 5 1 3)).reg 0 = 8 := by decide
theorem test_add_wraps : (after (withRegs (start [0x06, 0, 1]) 0 0xFFFFFFFF 1 1)).reg 0 = 0 := by decide
theorem test_addI : (after (withRegs (start [0x07, 1, 0, 0, 0, 2]) 1 0xFFFFFFFF 0 0)).reg 1 = 1 := by decide
theorem test_sub : (after (withRegs (start [0x08, 0, 1]) 0 3 1 5)).reg 0 = 0xFFFFFFFE := by decide
theorem test_subI : (after (start [0x09, 2, 0, 0, 0, 1])).reg 2 = 0xFFFFFFFF := by decide
theorem test_mul : (after (withRegs (start [0x0A, 0, 1]) 0 0x10001 1 0x10001)).reg 0 = 0x00020001 := by decide
theorem test_div : (after (withRegs (start [0x0B, 0, 1]) 0 0x80000000 1 0xFFFFFFFF)).reg 0 = 0 := by decide
theorem test_div_zero : verdict (start [0x0B, 0, 1]) = (.faulted, some .arithmeticFault, 0, 0) := by decide
theorem test_register_before_zero : verdict (start [0x0B, 0, 32]) = (.faulted, some .registerFault, 0, 0) := by decide
theorem test_jmp : (after (start [0x0C, 0, 0, 0, 0x12])).pc = 0x12 := by decide
theorem test_jeq : (after (withRegs (start [0x0D, 0, 1, 0, 0, 0, 0x40]) 0 7 1 7)).pc = 0x40 ∧
    (after (withRegs (start [0x0D, 0, 1, 0, 0, 0, 0x40]) 0 7 1 8)).pc = 7 := by decide
theorem test_jne : (after (withRegs (start [0x0E, 0, 1, 0, 0, 0, 0x40]) 0 7 1 8)).pc = 0x40 ∧
    (after (withRegs (start [0x0E, 0, 1, 0, 0, 0, 0x40]) 0 7 1 7)).pc = 7 := by decide
theorem test_jgt : (after (withRegs (start [0x17, 1, 2, 0, 0, 0, 0x27]) 1 0x80000000 2 0x7FFFFFFF)).pc = 0x27 ∧
    (after (withRegs (start [0x17, 1, 2, 0, 0, 0, 0x27]) 1 10 2 10)).pc = 7 := by decide
theorem test_call : (after (start [0x12, 0, 0, 0, 0x0B])).stack = [(0, 5)] ∧ (after (start [0x12, 0, 0, 0, 0x0B])).sp = 1 ∧
    (after (start [0x12, 0, 0, 0, 0x0B])).pc = 0x0B := by decide
theorem test_ret : (after { start [0x13] with stack := [(0, 5)], sp := 1 }).pc = 5 ∧
    (after { start [0x13] with stack := [(0, 5)], sp := 1 }).sp = 0 := by decide
theorem test_ret_empty : verdict (start [0x13]) = (.faulted, some .stackFault, 0, 0) := by decide
theorem test_storeStr : (after (start [0x0F, 0, 0, 0, 9, 0, 0, 2, 0, 0x48, 0x49, 0x00])).ram = [(0x200, 0x48), (0x201, 0x49)] := by
  decide
theorem test_storeStr_fault : verdict (start [0x0F, 0, 0, 0, 9, 0, 0, 2, 0, 0x48, 0x49]) = (.faulted, some .romFault, 0, 0) := by
  decide
theorem test_printMem : (after ((start [0x10, 0, 0, 2, 0]).setRamBytes 0x200 [0x48, 0x49])).console =
    [.byte 0x48, .byte 0x49, .flush] := by decide
theorem test_printRom : (after (start [0x11, 0, 0, 0, 6, 0xFF, 0x48, 0x49, 0x00])).console =
    [.byte 0x48, .byte 0x49, .flush] := by decide
theorem test_swapBuffers : (after (start [0x14])).current = 1 := by decide
theorem test_drawPixel : (after (withRegs (start [0x15, 0, 1, 0xFF, 0, 0, 0xFF]) 0 5 1 3)).pixel 1 1 1 = 0xFF0000FF ∧
    (after (withRegs (start [0x15, 0, 1, 0xFF, 0, 0, 0xFF]) 0 5 1 3)).pixel 0 1 1 = 0 := by decide

/-- A DRAW_SPRITE of a record of 2 by 1 pixels that follows it. -/
def drawRom : List Byte := [0x16, 0, 1, 0, 0, 0, 7, 0, 2, 0, 1, 0x11, 0x11, 0x11, 0x11, 0x22, 0x22, 0x22, 0x22]

/-- The image of that record. -/
def drawImage : Sprite := { w := 2, h := 1, px := [0x11111111, 0x22222222] }

theorem test_drawSprite : (after (withRegs (start drawRom) 0 3 1 1)).pixel 1 3 1 = 0x11111111 ∧
    (after (withRegs (start drawRom) 0 3 1 1)).pixel 1 0 1 = 0x22222222 ∧
    (after (withRegs (start drawRom) 0 3 1 1)).scache = [(7, drawImage)] := by decide
theorem test_drawSprite_short : verdict (start (drawRom.take 18)) = (.faulted, some .romFault, 0, 0) := by decide
theorem test_end_of_rom : verdict (start []) = (.run, none, 0, 0) ∧ (start []).cont = false := by decide
theorem test_truncated : verdict (start [0x01, 0, 0, 0, 0]) = (.faulted, some .romFault, 0, 0) := by decide
theorem test_fetch_word : (after (State.reset.withFetchWord 48 0x050000000001)).reg 0 = 5 := by decide
theorem test_host_read : transact (.readPixel 0 4 0) { core := start [], taken := 0, loadOpen := true } =
    .refused .pixelOutsideSurface := rfl

/-! ## Witnesses: the hypotheses of every obligation can be met, clause by clause -/

/-- DecodeOfEncode. -/
theorem test_meets_wellFormed : Instr.wellFormed (.nop 0x18) = true ∧ Instr.wellFormed (.nop 0xFE) = true ∧
    Instr.wellFormed (.storeStr 0xFFFFFFFF 0) = true := by decide

/-- EncodeOfDecode. -/
theorem test_meets_decode : decode [0x06, 255, 0, 1] = .instr (.add 255 0) [1] ∧ decode [0xFE] = .instr (.nop 0xFE) [] := by decide

/-- EveryOpcodeDecodes. -/
theorem test_meets_tail : 8 ≤ (List.replicate 8 (0 : Byte)).length := by decide

/-- StepRunsDecodedInstruction: an instruction that ends with the ROM, and one with bytes after it. -/
theorem test_meets_decoded_at_pc : (start [0x0C, 0, 0, 0, 0]).status = .run ∧
    decode (fetchWindow (start [0x0C, 0, 0, 0, 0]).rom 9 (start [0x0C, 0, 0, 0, 0]).pc) = .instr (.jmp 0) [] ∧
    decode (fetchWindow (start [0x13, 7]).rom 9 (start [0x13, 7]).pc) = .instr .ret [7] := by decide

/-- StepRunsEncodedInstruction. -/
theorem test_meets_encoded_at_pc : Instr.wellFormed (.storeStr 1 2) = true ∧ (start (encode (.storeStr 1 2))).status = .run ∧
    ∀ k (h : k < (encode (.storeStr 1 2)).length),
      (start (encode (.storeStr 1 2))).rom[((start (encode (.storeStr 1 2))).pc.toNat + k) % 4294967296]? =
        some (encode (.storeStr 1 2))[k] := by decide

/-- StoppedCoreNeverChanges: the three kinds of stop. -/
theorem test_meets_stopped : (start []).Stopped ∧ ({ start [0] with status := .halted } : State).Stopped ∧
    ({ start [0] with status := .faulted, faultCause := some .romFault } : State).Stopped :=
  ⟨.inr (by decide), .inl (by decide), .inl (by decide)⟩

/-- TruncatedInstructionRaisesRomFault: the last operand byte is missing, the first is missing, and no opcode. -/
theorem test_meets_truncated : (start [0x01, 0, 0, 0, 0]).status = .run ∧
    (start [0x01, 0, 0, 0, 0]).rom[(start [0x01, 0, 0, 0, 0]).pc.toNat]? = some 0x01 ∧ 5 < opcodeLength 0x01 ∧
    (start [0x01, 0, 0, 0, 0]).rom[((start [0x01, 0, 0, 0, 0]).pc.toNat + 5) % 4294967296]? = none ∧
    1 < opcodeLength 0x17 ∧ (start [0x17]).rom[((start [0x17]).pc.toNat + 1) % 4294967296]? = none ∧
    (start []).rom.length ≤ (start []).pc.toNat := by decide

/-- FetchNeverWrapsBelowFullRom: an instruction that ends with the ROM. -/
theorem test_meets_fetch : (start [0x04, 0, 0]).rom.length < 4294967296 ∧ (start [0x04, 0, 0]).fetch = .instr (.store 0 0) := by decide

/-- PlacedWordIsExecuted: the shortest and the longest instruction. -/
theorem test_meets_table_word : decodeTableWord 8 0xFF = some .halt ∧ decodeTableWord 72 0x02000000010000000F = some (.storeStr 1 2) := by
  decide

/-- IdleSpinsForEver, HaltStopsTheCore, UnrecognisedOpcodesAreNops at both ends. -/
theorem test_meets_special : (start [0x00]).status = .run ∧ (start [0x00]).rom[(start [0x00]).pc.toNat]? = some 0x00 ∧
    (start [0xFF]).rom[(start [0xFF]).pc.toNat]? = some 0xFF ∧ (start [0x18]).rom[(start [0x18]).pc.toNat]? = some 0x18 ∧
    (start [0xFE]).rom[(start [0xFE]).pc.toNat]? = some 0xFE ∧ 0x18 ≤ (0x18 : Byte).toNat ∧ (0xFE : Byte).toNat ≤ 0xFE := by decide

/-- Register bytes: the last good one, the first bad one and the largest. -/
theorem test_meets_registers : (31 : Byte).toNat = (31 : Fin 32) ∧ (0 : Byte).toNat = (0 : Fin 32) ∧ 32 ≤ (32 : Byte).toNat ∧
    32 ≤ (255 : Byte).toNat ∧ (31 : Byte).toNat < 32 := by decide

/-- LoadsReadBigEndianRam, StoresWriteBigEndianRam, StoreThenLoadRoundTrips: the last good address and the first bad one, as an operand
and in a register, with register bytes 31 and 30, and each register byte bad. -/
theorem test_meets_addresses :
    ((31 : Byte).toNat = (31 : Fin 32) ∧ (65532 : Word).toNat < 65533) ∧ ((31 : Byte).toNat < 32 ∧ 65533 ≤ (65533 : Word).toNat) ∧
    ((31 : Byte).toNat = (31 : Fin 32) ∧ (30 : Byte).toNat = (30 : Fin 32) ∧ (((start []).setReg 30 65532).reg 30).toNat < 65533) ∧
    ((31 : Byte).toNat < 32 ∧ (30 : Byte).toNat = (30 : Fin 32) ∧ 65533 ≤ (((start []).setReg 30 65533).reg 30).toNat) ∧
    65533 ≤ (((start []).setReg 30 0xFFFFFFFF).reg 30).toNat ∧ (32 ≤ (32 : Byte).toNat ∨ 32 ≤ (0 : Byte).toNat) ∧
    (32 ≤ (0 : Byte).toNat ∨ 32 ≤ (32 : Byte).toNat) := by decide

/-- DivWritesUnsignedQuotient: the divisors 1 and 0. -/
theorem test_meets_divisors : ((31 : Byte).toNat = (31 : Fin 32) ∧ (30 : Byte).toNat = (30 : Fin 32) ∧
    (((start []).setReg 30 1).reg 30).toNat ≠ 0) ∧ ((start []).reg 30).toNat = 0 := by decide

/-- JmpGoesToAnyTarget: a target just beyond the ROM. -/
theorem test_meets_target : (start [0x0C, 0, 0, 0, 5]).rom.length ≤ (5 : Word).toNat := by decide

/-- CallPushesReturnAddress, ReturnPopsIntoCounter. -/
theorem test_meets_stack : ({ start [] with sp := 1 } : State).sp ≠ (start []).cfg.stackCap ∧
    ({ start [] with sp := 2 } : State).sp = (start []).cfg.stackCap ∧ ({ start [] with sp := 1 } : State).sp ≠ 0 ∧
    (start []).sp = 0 := by decide

/-- NestedCallsReturn: calls up to the capacity. -/
theorem test_meets_nesting : (start []).sp + ([(9 : Word)].length + 1) ≤ (start []).cfg.stackCap := by decide

/-- StoreStrCopiesOrFaults: a string of one byte whose terminator lands on the last byte of the RAM; a ROM that ends first, on a tie; a
RAM that ends first. -/
theorem test_meets_storeStr :
    (∀ k, k < 1 → (65534 : Word).toNat + k < 65536 ∧ ∃ b, (start [7, 0]).rom[(0 : Word).toNat + k]? = some b ∧ b ≠ 0) ∧
    (start [7, 0]).rom[(0 : Word).toNat + 1]? = some 0 ∧ (65534 : Word).toNat + 1 < 65536 ∧
    (start [7]).rom.length ≤ (0 : Word).toNat + 1 ∧ 65536 ≤ (65535 : Word).toNat + 1 ∧
    (∀ k, k < 1 → (65535 : Word).toNat + k < 65536 ∧ ∃ b, (start [7, 0]).rom[(0 : Word).toNat + k]? = some b ∧ b ≠ 0) ∧
    (0 : Word).toNat + 1 < (start [7, 0]).rom.length := by
  refine ⟨fun k hk => ?_, by decide, by decide, by decide, by decide, fun k hk => ?_, by decide⟩ <;>
    (obtain rfl : k = 0 := by omega
     exact ⟨by decide, 7, by decide⟩)

/-- StoreStrCopiesOrFaults at a ROM that ends first, with its premise on the bytes before the end. -/
theorem test_meets_storeStr_tie : (∀ k, k < 1 → (65535 : Word).toNat + k < 65536 ∧
    ∃ b, (start [7]).rom[(0 : Word).toNat + k]? = some b ∧ b ≠ 0) ∧ (start [7]).rom.length ≤ (0 : Word).toNat + 1 := by
  refine ⟨fun k hk => ?_, by decide⟩
  obtain rfl : k = 0 := by omega
  exact ⟨by decide, 7, by decide⟩

/-- PrintMemEmitsString: a string of one byte that ends with the RAM, and none before the top of the RAM. -/
theorem test_meets_printMem :
    (∀ k (h : k < [(7 : Byte)].length), ((start []).setRam 65534 7).ramAt ((65534 : Word).toNat + k) = [(7 : Byte)][k] ∧
      [(7 : Byte)][k] ≠ 0) ∧
    ((start []).setRam 65534 7).ramAt ((65534 : Word).toNat + 1) = 0 ∧ (65534 : Word).toNat + 1 < 65536 ∧
    ∀ a, (65535 : Word).toNat ≤ a → a < 65536 → ((start []).setRam 65535 7).ramAt a ≠ 0 := by
  refine ⟨by decide, by decide, by decide, fun a h1 h2 => ?_⟩
  have h1' : 65535 ≤ a := h1
  obtain rfl : a = 65535 := by omega
  decide

/-- PrintRomEmitsString: a string that ends with the ROM, and a ROM with no terminator. -/
theorem test_meets_printRom :
    (∀ k (h : k < [(7 : Byte)].length), (start [7, 0]).rom[(0 : Word).toNat + k]? = some [(7 : Byte)][k] ∧ [(7 : Byte)][k] ≠ 0) ∧
    (start [7, 0]).rom[(0 : Word).toNat + 1]? = some 0 ∧ ∀ a, (0 : Word).toNat ≤ a → (start [7]).rom[a]? ≠ some 0 := by
  refine ⟨by decide, by decide, fun a _ h => ?_⟩
  cases a with
  | zero => exact absurd h (by decide)
  | succ a => cases h

/-- StoredStringPrintsLikeRomString. -/
theorem test_meets_stored_string : (∀ k, k < 1 → ∃ b, (start [7, 0]).rom[(0 : Word).toNat + k]? = some b ∧ b ≠ 0) ∧
    (start [7, 0]).rom[(0 : Word).toNat + 1]? = some 0 ∧ (65534 : Word).toNat + 1 < 65536 := by
  refine ⟨fun k hk => ?_, by decide, by decide⟩
  obtain rfl : k = 0 := by omega
  exact ⟨7, by decide⟩

/-- DrawPixelWritesOneBackPixel with its last pixel, and the smallest legal parameters. -/
theorem test_meets_drawPixel : (start []).cfg.Legal ∧ (31 : Byte).toNat = (31 : Fin 32) ∧ (0 : Byte).toNat = (0 : Fin 32) ∧
    3 < (start []).cfg.fbWidth ∧ 1 < (start []).cfg.fbHeight ∧
    ({ stackCap := 1, fbWidth := 1, fbHeight := 1 } : Config).Legal := by decide

/-- ResetMeetsInvariant: the smallest legal parameters with the largest ROM. -/
theorem test_meets_reset : ({ stackCap := 1, fbWidth := 1, fbHeight := 1 } : Config).Legal ∧
    ∃ rom : List Byte, rom.length = 4294967296 := ⟨by decide, _, List.length_replicate (a := 0)⟩

/-- SpriteRecordLayout: a header one byte short, a raster one byte short, a record that ends with the ROM. -/
theorem test_meets_record : [(0 : Byte), 1, 0].length < 0 + 4 ∧
    [(0 : Byte), 1, 0, 1, 9, 9, 9][3]? = some 1 ∧ [(0 : Byte), 1, 0, 1, 9, 9, 9].length < 0 + 4 + 4 * (1 * 1) ∧
    1 = 256 * (0 : Byte).toNat + (1 : Byte).toNat ∧ 0 + 4 + 4 * (1 * 1) ≤ [(0 : Byte), 1, 0, 1, 9, 9, 9, 9].length ∧
    [(0 : Byte), 1, 0, 1, 9, 9, 9, 9][0]? = some 0 ∧ [(0 : Byte), 1, 0, 1, 9, 9, 9, 9][1]? = some 1 ∧
    [(0 : Byte), 1, 0, 1, 9, 9, 9, 9][2]? = some 0 := by decide

/-- DrawSpriteBlitsImage: a miss that decodes and a hit. DrawSpriteFaultsOnlyOnAMiss: a miss that does not decode, and a hit. -/
theorem test_meets_sprite : ((start drawRom).cfg.Legal ∧ (31 : Byte).toNat = (31 : Fin 32) ∧ (0 : Byte).toNat = (0 : Fin 32) ∧
    (31 : Byte).toNat < 32 ∧ (0 : Byte).toNat < 32) ∧ (start drawRom).cached 7 = none ∧ decodeSprite (start drawRom).rom (7 : Word).toNat = .ok drawImage ∧
    ({ start [] with scache := [(7, drawImage)] } : State).cached 7 = some drawImage ∧
    (start (drawRom.take 18)).cached 7 = none ∧
    decodeSprite (start (drawRom.take 18)).rom (7 : Word).toNat = .error .romFault := by
  refine ⟨by decide, by decide, rfl, by decide, by decide, rfl⟩

/-- SpriteIsDecodedAtMostOnce, with no step and with one step between the draws. -/
theorem test_meets_drawn : ∃ t, exec (.drawSprite 0 1 7) (start drawRom) = .next t ∧ t.steps = (start drawRom).steps + 1 ∧
    (31 : Byte).toNat < 32 ∧ Host.Core.run core 0 t = .next t ∧ ∃ v, Host.Core.run core 1 t = .next v :=
  ⟨_, rfl, by decide, by decide, rfl, _, rfl⟩

/-- SpriteCacheIsTransparent: an empty cache and one with an entry. -/
theorem test_meets_coherent : CacheCoherent drawRom [] ∧ CacheCoherent drawRom [(7, drawImage)] := by
  refine ⟨fun a img h => (by cases h), fun a img h => ?_⟩
  simp only [lookup] at h
  split at h
  next e =>
    cases h
    subst e
    rfl
  · cases h

/-- BadRegisterByteRaisesRegisterFault: the first and the second register byte. -/
theorem test_meets_bad_byte : (32 : Byte) ∈ registerOperands (.jgt 32 0 0) ∧ (255 : Byte) ∈ registerOperands (.drawSprite 0 255 0) ∧
    32 ≤ (32 : Byte).toNat := by decide

/-- FaultsArePrecise. -/
theorem test_meets_fault : (start [0x13]).status = .run ∧ ∃ t, step (start [0x13]) = .next t ∧ t.status = .faulted :=
  ⟨by decide, _, rfl, by decide⟩

/-- ComponentsWrittenOnlyAsListed: an instruction that completes, HALT, and one that raises a fault. -/
theorem test_meets_exec : (∃ t, exec (.call 9) (start []) = .next t ∧ t.sp = 1) ∧
    (∃ t, exec .halt (start []) = .next t ∧ t.status = .halted) ∧
    ∃ t, exec .ret (start []) = .next t ∧ t.faultCause = some .stackFault :=
  ⟨⟨_, rfl, by decide⟩, ⟨_, rfl, by decide⟩, _, rfl, by decide⟩

/-- StepKeepsInvariant: reset, and a state with listed memory, a live slot and a fault. -/
theorem test_meets_inv : State.reset.Inv ∧
    ({ start [0] with ram := [(65535, 1)], stack := [(1, 9)], sp := 2, status := .faulted, faultCause := some .stackFault } :
      State).Inv := by
  constructor <;>
    exact ⟨by decide, by decide, by decide, by decide, by decide, by decide, by decide, (fun a img h => by cases h), by decide⟩

/-- The statements about a step and a run from any state: a step that changes something. -/
theorem test_meets_step : (∃ t, step (start [0x48]) = .next t ∧ t.pc = 1) ∧
    ∃ t, Host.Core.run core 2 (start [0x48, 0x49]) = .next t ∧ t.pc = 2 :=
  ⟨⟨_, rfl, by decide⟩, _, rfl, by decide⟩

/-- ContIsFalseExactlyAtAStop: both answers. -/
theorem test_meets_cont : (start [0x48]).cont = true ∧ (start [0xFF]).cont = false ∧ (start [0x13]).cont = false ∧
    (start []).cont = false := by decide

/-- CacheEntriesNeverChange. -/
theorem test_meets_cached : ∃ t, step { start [0x48] with scache := [(7, drawImage)] } = .next t ∧
    ({ start [0x48] with scache := [(7, drawImage)] } : State).cached 7 = some drawImage := ⟨_, rfl, by decide⟩

/-- CanonicalMemoriesAreEqualData: canonical forms, and what is not one. -/
theorem test_meets_canonical : Memory.wf [(0, 1), (65535, 2)] = true ∧ Memory.wf [(65536, 1)] = false ∧
    Memory.wf [(1, 1), (0, 1)] = false ∧ Memory.wf [(0, 0)] = false := by decide

/-- LoadRomOncePerRun: an open session, byte sequences of 2^32 bytes and of one more, a step, and a closed session with a transaction that
is not Reset. -/
theorem test_meets_load : ({ core := start [], taken := 0, loadOpen := true } : Session).loadOpen = true ∧
    (∃ bytes : List Byte, bytes.length = 4294967296) ∧ (∃ bytes : List Byte, 4294967296 < bytes.length) ∧
    (∃ q r, transact .step { core := start [], taken := 0, loadOpen := true } = .next (q, r)) ∧
    ({ core := start [], taken := 0, loadOpen := false } : Session).loadOpen = false ∧ Transaction.consoleTake ≠ .reset ∧
    ∃ q r, transact .consoleTake { core := start [], taken := 0, loadOpen := false } = .next (q, r) := by
  refine ⟨by decide, ⟨_, List.length_replicate (a := 0)⟩, ⟨List.replicate (4294967296 + 1) 0, ?_⟩, ⟨_, _, rfl⟩, by decide,
    by decide, _, _, rfl⟩
  rw [List.length_replicate]
  omega

/-- HostReadsChangeNothing: the last pixel. -/
theorem test_meets_pixel : 3 < (start []).cfg.fbWidth ∧ 1 < (start []).cfg.fbHeight := by decide

end Sys2Proof.Machine.Tests
end

section
/-! What no step breaks: the invariant of the reachable states, one lemma per write of the state, and the clean end of every
instruction (rules R10, R207, R211). -/

namespace Sys2Proof.Machine

/-! ## Each write keeps the invariant -/

/-- An entry that is what decoding its address gives keeps the cache in agreement with the ROM (rules R32, R33). -/
theorem CacheCoherent.insertAt {rom : List Byte} {c : Store Sprite} (h : CacheCoherent rom c) {k : Nat} {img : Sprite}
    (hd : decodeSprite rom k = .ok img) : CacheCoherent rom (insertAt k img c) := by
  intro j v hj
  rw [lookup_insertAt] at hj
  split at hj
  next hjk => rw [hjk, hd, Option.some.inj hj]
  next => exact h j v hj

variable {s : State}

theorem State.Inv.jumpTo (h : s.Inv) (pc : Word) : (s.jumpTo pc).Inv := { h with }

theorem State.Inv.fallThrough (h : s.Inv) (len : Nat) : (s.fallThrough len).Inv := { h with }

theorem State.Inv.countStep (h : s.Inv) : s.countStep.Inv := { h with }

theorem State.Inv.setReg (h : s.Inv) (d : Fin 32) (v : Word) : (s.setReg d v).Inv := { h with }

theorem State.Inv.print (h : s.Inv) (bs : List Byte) : (s.print bs).Inv := { h with }

theorem State.Inv.swap (h : s.Inv) : State.Inv { s with current := 1 - s.current } := { h with }

theorem State.Inv.setRamBytes (h : s.Inv) {a : Nat} {bs : List Byte} (hb : a + bs.length ≤ 65536) :
    (s.setRamBytes a bs).Inv := by
  rw [s.setRamBytes_eq]
  exact { h with ram := s.ram_wf_setRamBytes h.ram hb }

/-- A push below capacity writes a slot below STACK_CAP (rule R27). -/
theorem State.Inv.push (h : s.Inv) (hsp : s.sp ≠ s.cfg.stackCap) (v : Word) :
    State.Inv { s with stack := writeCell s.stack s.sp v, sp := s.sp + 1 } :=
  have hlt : s.sp < s.cfg.stackCap := Nat.lt_of_le_of_ne h.stackPointer hsp
  { h with stackPointer := hlt, stackSlots := cellsWf_writeCell h.stackSlots hlt v }

theorem State.Inv.pop (h : s.Inv) : State.Inv { s with sp := s.sp - 1 } :=
  { h with stackPointer := (Nat.sub_le s.sp 1).trans h.stackPointer }

theorem State.Inv.plotBack (h : s.Inv) (x y : Nat) (c : Word) :
    (s.plotBack (x % s.cfg.fbWidth) (y % s.cfg.fbHeight) c).Inv :=
  have ⟨_, ⟨hw, _⟩, hh, _⟩ := h.config
  { h with surfaces := s.surfaces_wf_plotBack (Nat.mod_lt x hw) (Nat.mod_lt y hh) h.surfaces }

theorem State.Inv.blit (h : s.Inv) (x y : Nat) (img : Sprite) : (s.blit x y img).Inv := by
  obtain ⟨-, ⟨hw, -⟩, hh, -⟩ := h.config
  rw [s.blit_eq]
  exact { h with surfaces := s.surfaces_wf_blitFrom x y img.w.toNat 0 img.px hw hh h.surfaces }

theorem State.Inv.cacheSprite (h : s.Inv) {a : Word} {img : Sprite} (hd : decodeSprite s.rom a.toNat = .ok img) :
    (s.cacheSprite a img).Inv :=
  { h with cacheKeys := sortedKeys_insertAt a.toNat img h.cacheKeys, cacheCoherent := h.cacheCoherent.insertAt hd }

/-- A cache access leaves the state as it is or adds an image that was just decoded (rule R186). -/
theorem State.Inv.getSprite (h : s.Inv) {a : Word} {img : Sprite} {t : State} (hg : s.getSprite a = .ok (img, t)) :
    t.Inv := by
  rcases s.getSprite_cases a with ⟨_, -, e⟩ | ⟨_, -, hd, e⟩ | ⟨-, -, e⟩ <;> rw [e] at hg <;> cases hg
  · exact h
  · exact h.cacheSprite hd

theorem State.Inv.raise (h : s.Inv) (f : CoreFault) : (s.raise f).Inv := { h with cause := by simp }

/-- Only a core that is FAULTED has a cause, so a running one that halts has none (rule R35). -/
theorem State.Inv.halt (h : s.Inv) (hrun : s.status = .run) : State.Inv { s with status := .halted } :=
  have hnone : s.faultCause = none := by simpa [hrun] using h.cause
  { h with cause := by simp [hnone] }

theorem Effect.keeps_inv {t : State} (he : Effect s t) (h : s.Inv) : t.Inv := by
  cases he with
  | control pc => exact h.jumpTo pc
  | register d v pc => exact (h.setReg d v).jumpTo pc
  | memory a bs pc hb => exact (h.setRamBytes hb).jumpTo pc
  | push v pc hsp => exact (h.push hsp v).jumpTo pc
  | pop pc _ => exact h.pop.jumpTo pc
  | print bs pc => exact (h.print bs).jumpTo pc
  | swap pc => exact h.swap.jumpTo pc
  | plot x y c pc => exact (h.plotBack x y c).jumpTo pc
  | draw a img t x y pc hg => exact ((h.getSprite hg).blit x y img).jumpTo pc

/-- Settles O42, by the four things a step can do: nothing, a fault, HALT, or one completed effect. -/
theorem stepKeepsInvariant : Obligations.StepKeepsInvariant := by
  intro s t h hstep
  rcases step_effect s hstep with rfl | ⟨-, f, rfl⟩ | ⟨hrun, rfl⟩ | ⟨-, u, he, rfl⟩
  · exact h
  · exact h.raise f
  · exact (h.fallThrough 1).halt hrun
  · exact (he.keeps_inv h).countStep

/-! ## Every instruction ends cleanly -/

/-- Settles O39, by the inversion of `exec`: HALT apart, an effect leaves `status`, `fault_cause`, `steps`, the ROM and the parameters
alone, and the commit counts the step. -/
theorem instructionCompletesOrFaultsCleanly : Obligations.InstructionCompletesOrFaultsCleanly := by
  intro i s
  by_cases hi : i = .halt
  · subst hi
    exact ⟨_, exec_halt s, .inl ⟨rfl, rfl, rfl, rfl, rfl⟩⟩
  · rcases exec_ends s i hi with ⟨u, he, e⟩ | ⟨f, hf, e⟩
    · obtain ⟨hcfg, hrom, hsteps, hstatus, hcause⟩ := he.fixed
      exact ⟨_, e, .inl (by simp [hi, hcfg, hrom, hsteps, hstatus, hcause])⟩
    · exact ⟨_, e, .inr ⟨f, hf, rfl⟩⟩

end Sys2Proof.Machine
end

section
/-! What the rules of the state in `10_state.md` promise of every instruction and every step: the reset state, the sprite cache, the
front surface, and which component is written by whom (rules R20, R31 to R33, R39). -/

namespace Sys2Proof.Machine

/-! ## The reset state -/

/-- Settles O43: every map of the reset state is empty, so it is canonical and coherent with any ROM. -/
theorem resetMeetsInvariant : Obligations.ResetMeetsInvariant := by
  intro c rom hc hrom
  have hreset : (State.resetWith c).Inv :=
    { config := hc
      romSize := Nat.zero_le _
      stackPointer := Nat.zero_le _
      stackSlots := rfl
      ram := rfl
      surfaces := fun k => by simp [State.resetWith, Surface.wf]
      cacheKeys := rfl
      cacheCoherent := fun _ _ h => by cases h
      cause := by simp [State.resetWith] }
  exact ⟨hreset, { hreset with romSize := hrom, cacheCoherent := fun _ _ h => by cases h }⟩

variable {s : State}

/-! ## Sprite-cache entries stay -/

/-- The image that a cache access answers is in the cache after it (rule R186). -/
theorem State.getSprite_cached {a : Word} {img : Sprite} {t : State} (h : s.getSprite a = .ok (img, t)) :
    t.cached a = some img := by
  rcases s.getSprite_cases a with ⟨_, hc, e⟩ | ⟨_, -, -, e⟩ | ⟨-, -, e⟩ <;> rw [e] at h <;> cases h
  · exact hc
  · simp [State.cached_cacheSprite]

/-- A cache access inserts under an address that had no entry, so it keeps the entries there were (rule R186). -/
theorem State.getSprite_keeps_cached {a b : Word} {img j : Sprite} {t : State} (h : s.getSprite a = .ok (img, t))
    (hb : s.cached b = some j) : t.cached b = some j := by
  rcases s.getSprite_cases a with ⟨_, -, e⟩ | ⟨_, hnone, -, e⟩ | ⟨-, -, e⟩ <;> rw [e] at h <;> cases h
  · exact hb
  · have hba : b ≠ a := by
      rintro rfl
      simp [hnone] at hb
    rw [State.cached_cacheSprite, if_neg hba, hb]

theorem State.cached_blit (x y : Nat) (img : Sprite) (a : Word) : (s.blit x y img).cached a = s.cached a := by
  simp [State.cached]

theorem Effect.keeps_cached {t : State} (he : Effect s t) {a : Word} {img : Sprite} (h : s.cached a = some img) :
    t.cached a = some img := by
  cases he with
  | memory => simpa [State.cached] using h
  | draw b j u x y pc hg => exact (u.cached_blit x y j a).trans (State.getSprite_keeps_cached hg h)
  | _ => exact h

/-- Settles O47, by the four things a step can do: only DRAW_SPRITE touches the cache, and it inserts on a miss. -/
theorem cacheEntriesNeverChange : Obligations.CacheEntriesNeverChange := by
  intro s t a img hstep h
  rcases step_effect s hstep with rfl | ⟨-, f, rfl⟩ | ⟨-, rfl⟩ | ⟨-, u, he, rfl⟩
  · exact h
  · exact h
  · exact h
  · exact he.keeps_cached h

/-! ## A sprite is decoded at most once -/

/-- An instruction that was counted has completed: a fault does not count (rules R34, R211). -/
theorem State.complete_counted {r : Except CoreFault State} {t : State} (h : s.complete r = .next t)
    (hsteps : t.steps = s.steps + 1) : ∃ u, r = .ok u ∧ t = u.countStep := by
  cases r with
  | ok u =>
    cases h
    exact ⟨u, rfl, rfl⟩
  | error f =>
    cases h
    simp at hsteps

/-- A completed DRAW_SPRITE leaves its address in the cache (rule R188). -/
theorem execDrawSprite_caches {xr yr : Byte} {addr : Word} {t : State} (h : execDrawSprite xr yr addr s = .next t)
    (hsteps : t.steps = s.steps + 1) : ∃ img, t.cached addr = some img := by
  obtain ⟨u, hu, rfl⟩ := State.complete_counted h hsteps
  obtain ⟨a, -, hu⟩ := bind_eq_ok.mp hu
  obtain ⟨b, -, hu⟩ := bind_eq_ok.mp hu
  obtain ⟨⟨img, v⟩, hg, hu⟩ := bind_eq_ok.mp hu
  cases hu
  exact ⟨img, (v.cached_blit _ _ img addr).trans (State.getSprite_cached hg)⟩

/-- A DRAW_SPRITE of a cached address completes and leaves the cache as it is: it decodes nothing (rule R186). -/
theorem execDrawSprite_hit {xr yr : Byte} {addr : Word} {img : Sprite} (hx : xr.toNat < 32) (hy : yr.toNat < 32)
    (h : s.cached addr = some img) :
    ∃ u, execDrawSprite xr yr addr s = .next u ∧ u.scache = s.scache ∧ u.steps = s.steps + 1 := by
  unfold execDrawSprite
  rw [regIndex_ok (d := ⟨_, hx⟩) rfl, regIndex_ok (d := ⟨_, hy⟩) rfl, bind_ok, bind_ok, s.getSprite_hit h, bind_ok]
  exact ⟨_, rfl, by simp, by simp⟩

/-- Settles O36: the first draw caches its address, no step of the run removes the entry, and a hit does not read the ROM. -/
theorem spriteIsDecodedAtMostOnce : Obligations.SpriteIsDecodedAtMostOnce := by
  intro xr yr xr' yr' addr s t hexec hsteps hx hy n v rom hrun
  obtain ⟨img, ht⟩ := execDrawSprite_caches hexec hsteps
  have hv : v.cached addr = some img :=
    run_keeps t (P := fun w => w.cached addr = some img)
      (fun w w' hw hstep => cacheEntriesNeverChange w w' addr img hstep hw) n ht hrun
  exact execDrawSprite_hit (s := { v with rom := rom }) hx hy hv

/-! ## The front surface -/

theorem State.front_blit (x0 y0 : Nat) (img : Sprite) (x y : Nat) :
    (s.blit x0 y0 img).pixel s.current x y = s.pixel s.current x y :=
  s.front_blitFrom x0 y0 _ 0 img.px x y

theorem Effect.keeps_front {t : State} (he : Effect s t) (px py : Nat) :
    t.pixel s.current px py = s.pixel s.current px py := by
  cases he with
  | memory => simp [State.pixel, State.pixelIndex]
  | plot x y c pc => exact s.front_plotBack _ _ px py c
  | draw a img t x y pc hg =>
    rw [s.getSprite_state hg]
    exact State.front_blit (s := { s with scache := t.scache }) x y img px py
  | _ => rfl

/-- Settles O46, by the four things a step can do: plots and blits go to the back surface, and nothing else writes a pixel. -/
theorem frontSurfaceIsNeverDrawn : Obligations.FrontSurfaceIsNeverDrawn := by
  intro s t hstep px py
  rcases step_effect s hstep with rfl | ⟨-, f, rfl⟩ | ⟨-, rfl⟩ | ⟨-, u, he, rfl⟩
  · rfl
  · rfl
  · rfl
  · exact he.keeps_front px py

end Sys2Proof.Machine
end

section
/-! Which components an instruction writes (the table of rule R20), said once per constructor. The proofs follow the sequencing of an
instruction: operand checks and accesses first, then one commit. -/

namespace Sys2Proof.Machine

variable {s : State} {α : Type}

/-! ## What an instruction writes -/

/-- Whenever the body `r` of an instruction that starts in `s` succeeds, the commit leaves every component but `ps`, `pc` and `steps`
as it was. -/
def WritesOnly (s : State) (ps : List Part) (r : Except CoreFault State) : Prop :=
  ∀ u, r = .ok u → UnchangedBut (ps ++ [.pc, .steps]) s u.countStep

theorem SamePart.refl (s : State) (p : Part) : SamePart s s p := by
  cases p <;> simp [SamePart]

/-- A component that `t` reads as `s` does, by the definition of the read, is unchanged. -/
theorem SamePart.of_refl {t : State} {p : Part} (h : SamePart s t p = SamePart s s p) : SamePart s t p :=
  h.mpr (SamePart.refl s p)

/-- How an instruction that starts in `s` ends: with no component but `ps`, `pc` and `steps` written, or with a fault. -/
def WritesOrFaults (s : State) (ps : List Part) (t : State) : Prop :=
  UnchangedBut (ps ++ [.pc, .steps]) s t ∨ ∃ f, t = s.raise f

namespace WritesOnly

variable {ps : List Part}

theorem of_ok {u : State} (h : UnchangedBut (ps ++ [.pc, .steps]) s u.countStep) : WritesOnly s ps (.ok u) := by
  rintro _ ⟨⟩
  exact h

theorem of_error (f : CoreFault) : WritesOnly s ps (.error f) := by
  rintro _ ⟨⟩

/-- A body that first checks or reads something writes what its rest writes. -/
theorem bind {x : Except CoreFault α} {f : α → Except CoreFault State}
    (h : ∀ a, x = .ok a → WritesOnly s ps (f a)) : WritesOnly s ps (x >>= f) := by
  intro u hu
  obtain ⟨a, hx, hf⟩ := bind_eq_ok.mp hu
  exact h a hx u hf

/-! The writes themselves, one per kind of effect. -/

theorem jumpTo (pc : Word) : WritesOnly s [] (.ok (s.jumpTo pc)) := of_ok fun p hp => by
  cases p with
  | pc | steps => simp at hp
  | _ => exact .of_refl rfl

theorem setReg (d : Fin 32) (v : Word) (len : Nat) : WritesOnly s [.regs] (.ok ((s.setReg d v).fallThrough len)) := by
  obtain ⟨-, -, -, -, h⟩ := register_write_frame s d v len rfl
  exact of_ok h

theorem setRamBytes (a : Nat) (bs : List Byte) (len : Nat) :
    WritesOnly s [.ram] (.ok ((s.setRamBytes a bs).fallThrough len)) := by
  obtain ⟨-, -, -, -, h⟩ := memory_write_frame s a bs len rfl
  exact of_ok h

theorem memWrite32 (a v : Word) (len : Nat) :
    WritesOnly s [.ram] (s.memWrite32 a v >>= fun t => .ok (t.fallThrough len)) := by
  by_cases h : a.toNat < 65533
  · rw [s.memWrite32_ok h, bind_ok]
    exact setRamBytes _ _ len
  · rw [s.memWrite32_error (by omega), bind_error]
    exact of_error _

theorem push (v pc : Word) : WritesOnly s [.stack, .sp] (s.push v >>= fun t => .ok (t.jumpTo pc)) := by
  by_cases h : s.sp = s.cfg.stackCap
  · rw [s.push_error h, bind_error]
    exact of_error _
  · rw [s.push_ok h, bind_ok]
    exact of_ok fun p hp => by
      cases p with
      | stack | sp | pc | steps => simp at hp
      | _ => exact .of_refl rfl

theorem pop : WritesOnly s [.sp] (s.pop >>= fun x => .ok (x.2.jumpTo x.1)) := by
  by_cases h : s.sp = 0
  · rw [s.pop_error h, bind_error]
    exact of_error _
  · rw [s.pop_ok h, bind_ok]
    exact of_ok fun p hp => by
      cases p with
      | sp | pc | steps => simp at hp
      | _ => exact .of_refl rfl

theorem print (bs : List Byte) (len : Nat) : WritesOnly s [.console] (.ok ((s.print bs).fallThrough len)) :=
  of_ok fun p hp => by
    cases p with
    | console | pc | steps => simp at hp
    | _ => exact .of_refl rfl

theorem swap (k : Fin 2) (len : Nat) :
    WritesOnly s [.selector] (.ok (State.fallThrough { s with current := k } len)) :=
  of_ok fun p hp => by
    cases p with
    | selector | pc | steps => simp at hp
    | _ => exact .of_refl rfl

theorem plotBack (x y : Nat) (c : Word) (len : Nat) :
    WritesOnly s [.surfaces] (.ok ((s.plotBack x y c).fallThrough len)) :=
  of_ok fun p hp => by
    cases p with
    | surfaces | pc | steps => simp at hp
    | _ => exact .of_refl rfl

theorem blit {a : Word} {img : Sprite} {t : State} (h : s.getSprite a = .ok (img, t)) (x y len : Nat) :
    WritesOnly s [.surfaces, .cache] (.ok ((t.blit x y img).fallThrough len)) :=
  of_ok fun p hp => by
    rw [t.blit_eq, s.getSprite_state h]
    cases p with
    | surfaces | cache | pc | steps => simp at hp
    | _ => exact .of_refl rfl

theorem complete {r : Except CoreFault State} (h : WritesOnly s ps r) {t : State} (ht : s.complete r = .next t) :
    WritesOrFaults s ps t := by
  cases r with
  | ok u =>
    cases ht
    exact .inl (h u rfl)
  | error f =>
    cases ht
    exact .inr ⟨f, rfl⟩

end WritesOnly

/-! The families -/

theorem aluReg_writes (op : Word → Word → Except CoreFault Word) (r1 r2 : Byte) {t : State}
    (h : s.aluReg op r1 r2 = .next t) : WritesOrFaults s [.regs] t :=
  WritesOnly.complete (.bind fun d _ => .bind fun _ _ => .bind fun v _ => .setReg d v 3) h

theorem aluImm_writes (op : Word → Word → Word) (r : Byte) (v : Word) {t : State}
    (h : s.aluImm op r v = .next t) : WritesOrFaults s [.regs] t :=
  WritesOnly.complete (.bind fun d _ => .setReg d (op (s.reg d) v) 6) h

theorem jumpIf_writes (cond : Word → Word → Bool) (r1 r2 : Byte) (addr : Word) {t : State}
    (h : s.jumpIf cond r1 r2 addr = .next t) : WritesOrFaults s [] t := by
  refine WritesOnly.complete (.bind fun a _ => .bind fun b _ => ?_) h
  cases cond (s.reg a) (s.reg b) with
  | true => exact .jumpTo addr
  | false => exact .jumpTo _

/-- The table of rule R20 by instruction: a completion writes `pc`, `steps` and the listed components. -/
theorem exec_writes (i : Instr) (hi : i ≠ .halt) {t : State} (h : exec i s = .next t) :
    WritesOrFaults s (writtenBy i) t := by
  cases i with
  | idle | nop | jmp => exact WritesOnly.complete (.jumpTo _) h
  | mov r v => exact WritesOnly.complete (.bind fun d _ => .setReg d v 6) h
  | storeI r a => exact WritesOnly.complete (.bind fun _ _ => .memWrite32 _ _ 6) h
  | store r1 r2 => exact WritesOnly.complete (.bind fun _ _ => .bind fun _ _ => .memWrite32 _ _ 3) h
  | loadI r a => exact WritesOnly.complete (.bind fun d _ => .bind fun v _ => .setReg d v 6) h
  | load r1 r2 => exact WritesOnly.complete (.bind fun d _ => .bind fun _ _ => .bind fun v _ => .setReg d v 3) h
  | add r1 r2 => exact aluReg_writes (fun a b => .ok (a + b)) r1 r2 h
  | sub r1 r2 => exact aluReg_writes (fun a b => .ok (a - b)) r1 r2 h
  | mul r1 r2 => exact aluReg_writes (fun a b => .ok (a * b)) r1 r2 h
  | div r1 r2 => exact aluReg_writes quotient r1 r2 h
  | addI r v => exact aluImm_writes (fun a b => a + b) r v h
  | subI r v => exact aluImm_writes (fun a b => a - b) r v h
  | jeq r1 r2 a => exact jumpIf_writes condEq r1 r2 a h
  | jne r1 r2 a => exact jumpIf_writes condNe r1 r2 a h
  | jgt r1 r2 a => exact jumpIf_writes condGt r1 r2 a h
  | storeStr a b => exact WritesOnly.complete (.bind fun bs _ => .setRamBytes _ bs 9) h
  | printMem | printRom => exact WritesOnly.complete (.bind fun bs _ => .print bs 5) h
  | call a => exact WritesOnly.complete (.push _ a) h
  | ret => exact WritesOnly.complete .pop h
  | swapBuffers => exact WritesOnly.complete (.swap _ 1) h
  | drawPixel r1 r2 c => exact WritesOnly.complete (.bind fun _ _ => .bind fun _ _ => .plotBack _ _ c 7) h
  | drawSprite r1 r2 a =>
    exact WritesOnly.complete (.bind fun _ _ => .bind fun _ _ => .bind fun ⟨_, _⟩ hg => .blit hg _ _ 7) h
  | halt => exact absurd rfl hi

/-- A fault that an instruction raises stands in its row of rule R207: a completion differs from a fault by its step count. -/
theorem raised_fault_listed {i : Instr} (hi : i ≠ .halt) {f : CoreFault} (h : exec i s = .next (s.raise f)) :
    f ∈ mayRaise i := by
  rcases exec_ends s i hi with ⟨u, he, e⟩ | ⟨g, hg, e⟩ <;> rw [h] at e
  · obtain ⟨-, -, hsteps, -, -⟩ := he.fixed
    have hcount : (s.raise f).steps = u.countStep.steps := congrArg State.steps (Host.Outcome.next.inj e)
    simp [hsteps] at hcount
  · have hcause : some f = some g := congrArg State.faultCause (Host.Outcome.next.inj e)
    exact Option.some.inj hcause ▸ hg

theorem unchangedBut_raise (f : CoreFault) : UnchangedBut [.status, .faultCause] s (s.raise f) := fun p hp => by
  cases p with
  | status | faultCause => simp at hp
  | _ => exact .of_refl rfl

theorem unchangedBut_halt (len : Nat) :
    UnchangedBut [.pc, .status] s { s.fallThrough len with status := .halted } := fun p hp => by
  cases p with
  | pc | status => simp at hp
  | _ => exact .of_refl rfl

/-- Settles O41, from the table by instruction: HALT apart, an instruction completes as listed or raises a listed fault. -/
theorem componentsWrittenOnlyAsListed : Obligations.ComponentsWrittenOnlyAsListed := by
  intro i s t h
  by_cases hi : i = .halt
  · subst hi
    cases h
    exact .inl (unchangedBut_halt 1)
  · rw [if_neg hi]
    rcases exec_writes i hi h with hw | ⟨f, rfl⟩
    · exact .inl hw
    · exact .inr ⟨f, raised_fault_listed hi h, rfl, rfl, unchangedBut_raise f⟩

end Sys2Proof.Machine
end

section
/-! The sprite cache is transparent (rule R33): run on two states that differ only in coherent caches, every instruction ends in states
that differ only in their caches. -/

namespace Sys2Proof.Machine

variable {s : State} {α : Type}

/-- The state with the content of its sprite cache replaced. -/
def State.withCache (s : State) (c : Store Sprite) : State := { s with scache := c }

@[simp] theorem State.withCache_rom (c : Store Sprite) : (s.withCache c).rom = s.rom := rfl

@[simp] theorem State.withCache_withCache (c d : Store Sprite) : (s.withCache c).withCache d = s.withCache d := rfl

/-! ## Operations that do not look at the cache -/

theorem State.setRamBytes_withCache (c : Store Sprite) (a : Nat) (bs : List Byte) :
    (s.withCache c).setRamBytes a bs = (s.setRamBytes a bs).withCache c := by
  induction bs generalizing s a with
  | nil => rfl
  | cons b bs ih => exact ih (s := s.setRam a b) (a + 1)

theorem State.memStringFrom_withCache (c : Store Sprite) (fuel a : Nat) :
    (s.withCache c).memStringFrom fuel a = s.memStringFrom fuel a := by
  induction fuel generalizing a with
  | zero => rfl
  | succ fuel ih =>
    simp only [State.memStringFrom, ih]
    rfl

theorem State.blitFrom_withCache (c : Store Sprite) (x y w k : Nat) (ps : List Word) :
    State.blitFrom x y w k ps (s.withCache c) = (State.blitFrom x y w k ps s).withCache c := by
  induction ps generalizing s k with
  | nil => rfl
  | cons p ps ih => exact ih (s := s.plotBack _ _ p) (k + 1)

/-- With a coherent cache an access answers what the decoder answers, hit or miss: the content of the cache shows in the cache
alone. -/
theorem State.getSprite_of_coherent (h : CacheCoherent s.rom s.scache) (a : Word) :
    ∃ c, s.getSprite a = (decodeSprite s.rom a.toNat).map fun img => (img, s.withCache c) := by
  rcases s.getSprite_cases a with ⟨img, hc, e⟩ | ⟨img, -, hd, e⟩ | ⟨-, hd, e⟩
  · exact ⟨s.scache, by rw [e, h _ _ hc]; rfl⟩
  · exact ⟨insertAt a.toNat img s.scache, by rw [e, hd]; rfl⟩
  · exact ⟨s.scache, by rw [e, hd]; rfl⟩

/-! ## Bodies that agree but for the cache -/

/-- The bodies of an instruction run on two states: both raise the same fault, or both succeed, with results that differ in the cache
at most. -/
def AgreeButCache (r r' : Except CoreFault State) : Prop :=
  (∃ f, r = .error f ∧ r' = .error f) ∨ ∃ t c, r = .ok t ∧ r' = .ok (t.withCache c)

/-- The outcomes of an instruction or a step taken from two states: next states that differ in the cache at most. -/
def OutcomesAgree (o o' : StepOutcome) : Prop := ∃ t d, o = .next t ∧ o' = .next (t.withCache d)

namespace AgreeButCache

theorem error (f : CoreFault) : AgreeButCache (.error f) (.error f) := .inl ⟨f, rfl, rfl⟩

theorem ok (t : State) (c : Store Sprite) : AgreeButCache (.ok t) (.ok (t.withCache c)) := .inr ⟨t, c, rfl, rfl⟩

/-- Both bodies first make the same check or read. -/
theorem bind {x : Except CoreFault α} {f g : α → Except CoreFault State} (h : ∀ a, AgreeButCache (f a) (g a)) :
    AgreeButCache (x >>= f) (x >>= g) := by
  cases x with
  | ok a => exact h a
  | error e => exact .error e

variable (c : Store Sprite)

theorem setRamBytes (a : Nat) (bs : List Byte) (len : Nat) :
    AgreeButCache (.ok ((s.setRamBytes a bs).fallThrough len))
      (.ok (((s.withCache c).setRamBytes a bs).fallThrough len)) := by
  rw [State.setRamBytes_withCache]
  exact .ok _ c

theorem memWrite32 (a v : Word) (len : Nat) :
    AgreeButCache (s.memWrite32 a v >>= fun t => .ok (t.fallThrough len))
      ((s.withCache c).memWrite32 a v >>= fun t => .ok (t.fallThrough len)) := by
  by_cases h : a.toNat < 65533
  · rw [s.memWrite32_ok h, (s.withCache c).memWrite32_ok h, bind_ok, bind_ok]
    exact setRamBytes c _ _ len
  · rw [s.memWrite32_error (by omega), (s.withCache c).memWrite32_error (by omega)]
    exact .error _

theorem push (v pc : Word) :
    AgreeButCache (s.push v >>= fun t => .ok (t.jumpTo pc))
      ((s.withCache c).push v >>= fun t => .ok (t.jumpTo pc)) := by
  by_cases h : s.sp = s.cfg.stackCap
  · rw [s.push_error h, (s.withCache c).push_error h]
    exact .error _
  · rw [s.push_ok h, (s.withCache c).push_ok h]
    exact .ok _ c

theorem pop :
    AgreeButCache (s.pop >>= fun x => .ok (x.2.jumpTo x.1))
      ((s.withCache c).pop >>= fun x => .ok (x.2.jumpTo x.1)) := by
  by_cases h : s.sp = 0
  · rw [s.pop_error h, (s.withCache c).pop_error h]
    exact .error _
  · rw [s.pop_ok h, (s.withCache c).pop_ok h]
    exact .ok _ c

/-- The one place where an instruction looks at the cache. -/
theorem drawSprite (hs : CacheCoherent s.rom s.scache) (hc : CacheCoherent s.rom c) (a : Word) (x y len : Nat) :
    AgreeButCache (s.getSprite a >>= fun p => .ok ((p.2.blit x y p.1).fallThrough len))
      ((s.withCache c).getSprite a >>= fun p => .ok ((p.2.blit x y p.1).fallThrough len)) := by
  obtain ⟨d, e⟩ := State.getSprite_of_coherent hs a
  obtain ⟨d', e'⟩ := State.getSprite_of_coherent (s := s.withCache c) hc a
  rw [e, e', State.withCache_rom, State.withCache_withCache]
  cases decodeSprite s.rom a.toNat with
  | error f => exact .error f
  | ok img =>
    have : (s.withCache d').blit x y img = ((s.withCache d).blit x y img).withCache d' :=
      State.blitFrom_withCache (s := s.withCache d) d' x y _ 0 img.px
    simp only [Except.map, bind_ok]
    rw [this]
    exact .ok _ d'

/-- The commits of bodies that agree. -/
theorem complete {r r' : Except CoreFault State} (h : AgreeButCache r r') :
    OutcomesAgree (s.complete r) ((s.withCache c).complete r') := by
  rcases h with ⟨f, rfl, rfl⟩ | ⟨t, d, rfl, rfl⟩
  · exact ⟨s.raise f, c, rfl, rfl⟩
  · exact ⟨t.countStep, d, rfl, rfl⟩

end AgreeButCache

/-! ## The families and the instructions -/

variable (c : Store Sprite)

theorem aluReg_withCache (op : Word → Word → Except CoreFault Word) (r1 r2 : Byte) :
    OutcomesAgree (s.aluReg op r1 r2) ((s.withCache c).aluReg op r1 r2) :=
  AgreeButCache.complete c (.bind fun _ => .bind fun _ => .bind fun _ => .ok _ c)

theorem aluImm_withCache (op : Word → Word → Word) (r : Byte) (v : Word) :
    OutcomesAgree (s.aluImm op r v) ((s.withCache c).aluImm op r v) :=
  AgreeButCache.complete c (.bind fun _ => .ok _ c)

theorem jumpIf_withCache (cond : Word → Word → Bool) (r1 r2 : Byte) (addr : Word) :
    OutcomesAgree (s.jumpIf cond r1 r2 addr) ((s.withCache c).jumpIf cond r1 r2 addr) := by
  refine AgreeButCache.complete c (.bind fun a => .bind fun b => ?_)
  show AgreeButCache (.ok (if cond (s.reg a) (s.reg b) then _ else _)) (.ok (if cond (s.reg a) (s.reg b) then _ else _))
  cases cond (s.reg a) (s.reg b) with
  | true => exact .ok _ c
  | false => exact .ok _ c

/-- An instruction run with another coherent cache ends the same way but for the cache. -/
theorem exec_withCache (hs : CacheCoherent s.rom s.scache) (hc : CacheCoherent s.rom c) (i : Instr) :
    OutcomesAgree (exec i s) (exec i (s.withCache c)) := by
  cases i with
  | idle | nop | jmp | swapBuffers => exact AgreeButCache.complete (s := s) c (.ok _ c)
  | mov r v => exact AgreeButCache.complete c (.bind fun _ => .ok _ c)
  | storeI r a => exact AgreeButCache.complete c (.bind fun _ => .memWrite32 c _ _ 6)
  | store r1 r2 => exact AgreeButCache.complete c (.bind fun _ => .bind fun _ => .memWrite32 c _ _ 3)
  | loadI r a => exact AgreeButCache.complete c (.bind fun _ => .bind fun _ => .ok _ c)
  | load r1 r2 => exact AgreeButCache.complete c (.bind fun _ => .bind fun _ => .bind fun _ => .ok _ c)
  | add r1 r2 => exact aluReg_withCache c (fun a b => .ok (a + b)) r1 r2
  | sub r1 r2 => exact aluReg_withCache c (fun a b => .ok (a - b)) r1 r2
  | mul r1 r2 => exact aluReg_withCache c (fun a b => .ok (a * b)) r1 r2
  | div r1 r2 => exact aluReg_withCache c quotient r1 r2
  | addI r v => exact aluImm_withCache c (fun a b => a + b) r v
  | subI r v => exact aluImm_withCache c (fun a b => a - b) r v
  | jeq r1 r2 a => exact jumpIf_withCache c condEq r1 r2 a
  | jne r1 r2 a => exact jumpIf_withCache c condNe r1 r2 a
  | jgt r1 r2 a => exact jumpIf_withCache c condGt r1 r2 a
  | storeStr a b => exact AgreeButCache.complete c (.bind fun bs => .setRamBytes c _ bs 9)
  | printMem a =>
    have : (s.withCache c).memString a.toNat = s.memString a.toNat := State.memStringFrom_withCache c _ _
    simp only [exec, execPrintMem, this]
    exact AgreeButCache.complete c (.bind fun _ => .ok _ c)
  | printRom a => exact AgreeButCache.complete c (.bind fun _ => .ok _ c)
  | call a => exact AgreeButCache.complete c (.push c _ a)
  | ret => exact AgreeButCache.complete c (.pop c)
  | drawPixel r1 r2 v => exact AgreeButCache.complete c (.bind fun _ => .bind fun _ => .ok _ c)
  | drawSprite r1 r2 a => exact AgreeButCache.complete c (.bind fun _ => .bind fun _ => .drawSprite c hs hc a _ _ 7)
  | halt => exact ⟨_, c, rfl, rfl⟩

/-- Settles O37: fetch does not look at the cache, and every instruction ends the same way but for the cache. -/
theorem spriteCacheIsTransparent : Obligations.SpriteCacheIsTransparent := by
  intro s c hs hc
  have hfetch : (s.withCache c).fetch = s.fetch := rfl
  have hstep : OutcomesAgree (step s) (step (s.withCache c)) := by
    unfold step
    rw [hfetch]
    cases s.fetch with
    | stopped => exact ⟨s, c, rfl, rfl⟩
    | truncated => exact ⟨s.raise .romFault, c, rfl, rfl⟩
    | instr i => exact exec_withCache c hs hc i
  obtain ⟨t, d, e, e'⟩ := hstep
  exact ⟨t, _, e, e', rfl⟩

end Sys2Proof.Machine
end

section
/-! What the rules of `20_memory.md` promise: a stored word is loaded back, no run writes the ROM or the parameters, and the
representation of the RAM is canonical (rules R60, R61, R68, R233). -/

namespace Sys2Proof.Machine

variable {s : State}

/-! ## STORE, then LOAD -/

/-- A completed STORE (rule R143). -/
theorem exec_store_ok {r1 r2 : Byte} {v a : Fin 32} (hv : r1.toNat = v) (ha : r2.toNat = a)
    (hin : (s.reg a).toNat < 65533) :
    exec (.store r1 r2) s =
      .next ((s.setRamBytes (s.reg a).toNat (wordBytes (s.reg v))).fallThrough 3).countStep := by
  simp only [exec, execStore, State.indirectAddress, regIndex_ok hv, regIndex_ok ha, s.memWrite32_ok hin, bind_ok,
    pure_eq_ok, State.complete_ok]

/-- A completed LOAD, by the word that the access reads (rule R144). -/
theorem exec_load_ok {r1 r2 : Byte} {d a : Fin 32} {w : Word} (hd : r1.toNat = d) (ha : r2.toNat = a)
    (hread : s.memRead32 (s.reg a) = .ok w) :
    exec (.load r1 r2) s = .next ((s.setReg d w).fallThrough 3).countStep := by
  simp only [exec, execLoad, State.indirectAddress, regIndex_ok hd, regIndex_ok ha, hread, bind_ok, pure_eq_ok,
    State.complete_ok]

/-- The four bytes of a 32-bit store, read back as one word (rules R67, R68). -/
theorem State.memRead32_store32 {a : Word} (v : Word) (hin : a.toNat < 65533) :
    (s.setRamBytes a.toNat (wordBytes v)).memRead32 a = .ok v := by
  have hbyte := s.ramAt_store32 a.toNat v
  have hbyte0 : (s.setRamBytes a.toNat (wordBytes v)).ramAt a.toNat = byteOf v 0 := hbyte 0 (by decide)
  rw [State.memRead32_ok _ hin, hbyte0, hbyte 1 (by decide), hbyte 2 (by decide), hbyte 3 (by decide), be32_byteOf]

/-- Settles O17: STORE leaves the registers alone, so LOAD goes to the address just written and assembles the stored bytes. -/
theorem storeThenLoadRoundTrips : Obligations.StoreThenLoadRoundTrips := by
  intro rv ra rd v a d s hv ha hd hin
  obtain ⟨-, -, -, -, hframe⟩ := memory_write_frame s (s.reg a).toNat (wordBytes (s.reg v)) 3 rfl
  have hreg := hframe .regs (by simp) a
  refine ⟨_, _, exec_store_ok hv ha hin, exec_load_ok (w := s.reg v) hd ha ?_, State.reg_setReg_same _ d _⟩
  rw [hreg]
  exact State.memRead32_store32 (s.reg v) hin

/-! ## The ROM and the parameters -/

theorem step_keeps_rom_and_cfg {t : State} (h : step s = .next t) : t.rom = s.rom ∧ t.cfg = s.cfg := by
  rcases step_effect s h with rfl | ⟨-, f, rfl⟩ | ⟨-, rfl⟩ | ⟨-, u, he, rfl⟩
  · exact ⟨rfl, rfl⟩
  · exact ⟨rfl, rfl⟩
  · exact ⟨rfl, rfl⟩
  · obtain ⟨hcfg, hrom, -, -, -⟩ := he.fixed
    exact ⟨hrom, hcfg⟩

/-- Settles O45, by the induction over runs: every step keeps the ROM and the parameters of the state where the run began. -/
theorem romAndParametersNeverChange : Obligations.RomAndParametersNeverChange := by
  intro n s t hrun
  refine run_keeps s (P := fun u => u.rom = s.rom ∧ u.cfg = s.cfg) (fun u w ⟨hrom, hcfg⟩ hstep => ?_) n ⟨rfl, rfl⟩ hrun
  obtain ⟨hrom', hcfg'⟩ := step_keeps_rom_and_cfg hstep
  exact ⟨hrom'.trans hrom, hcfg'.trans hcfg⟩

/-! ## Canonical cells -/

variable {n : Nat}

/-- In canonical form no entry is zero, so what a cell reads decides whether it is listed. -/
theorem lookup_of_cellsWf {size : Nat} {m : Store (BitVec n)} (h : cellsWf size m = true) (k : Nat) :
    lookup k m = if readCell m k = 0 then none else some (readCell m k) := by
  obtain ⟨-, hentry⟩ := (cellsWf_iff size m).mp h
  cases hk : lookup k m with
  | none => simp [readCell, hk]
  | some v =>
    have hv : v ≠ 0 := (hentry _ (mem_of_lookup hk)).2
    simp only [readCell, hk, Option.getD_some]
    exact (if_neg hv).symm

/-- Cells in canonical form are the same list when they read the same. -/
theorem eq_of_readCell_eq {size : Nat} {m₁ m₂ : Store (BitVec n)} (h₁ : cellsWf size m₁ = true)
    (h₂ : cellsWf size m₂ = true) (h : ∀ k, readCell m₁ k = readCell m₂ k) : m₁ = m₂ := by
  obtain ⟨hs₁, -⟩ := (cellsWf_iff size m₁).mp h₁
  obtain ⟨hs₂, -⟩ := (cellsWf_iff size m₂).mp h₂
  exact eq_of_lookup_eq hs₁ hs₂ fun k => by rw [lookup_of_cellsWf h₁, lookup_of_cellsWf h₂, h]

/-- Settles O52: the RAM is 65536 cells of bytes. -/
theorem canonicalMemoriesAreEqualData : Obligations.CanonicalMemoriesAreEqualData :=
  fun _ _ h₁ h₂ h => eq_of_readCell_eq h₁ h₂ h

end Sys2Proof.Machine
end

section
/-! The encoding and fetch (rules R90 to R99): decoding and encoding undo each other, every opcode byte selects an instruction, and a
step executes the instruction whose bytes are at `pc`. -/

namespace Sys2Proof

/-! ## The length of an encoding (rules R90, R91) -/

/-- The lemmas `EncodeShape`, one per constructor, put together. -/
theorem encode_shape : ∀ i : Instr, Laws.EncodeShape.Statement i
  | .idle => Laws.EncodeShape.idle
  | .mov r v => Laws.EncodeShape.mov r v
  | .storeI r v => Laws.EncodeShape.storeI r v
  | .loadI r v => Laws.EncodeShape.loadI r v
  | .store r1 r2 => Laws.EncodeShape.store r1 r2
  | .load r1 r2 => Laws.EncodeShape.load r1 r2
  | .add r1 r2 => Laws.EncodeShape.add r1 r2
  | .addI r v => Laws.EncodeShape.addI r v
  | .sub r1 r2 => Laws.EncodeShape.sub r1 r2
  | .subI r v => Laws.EncodeShape.subI r v
  | .mul r1 r2 => Laws.EncodeShape.mul r1 r2
  | .div r1 r2 => Laws.EncodeShape.div r1 r2
  | .jmp v => Laws.EncodeShape.jmp v
  | .jeq r1 r2 v => Laws.EncodeShape.jeq r1 r2 v
  | .jne r1 r2 v => Laws.EncodeShape.jne r1 r2 v
  | .storeStr a b => Laws.EncodeShape.storeStr a b
  | .printMem v => Laws.EncodeShape.printMem v
  | .printRom v => Laws.EncodeShape.printRom v
  | .call v => Laws.EncodeShape.call v
  | .ret => Laws.EncodeShape.ret
  | .swapBuffers => Laws.EncodeShape.swapBuffers
  | .drawPixel r1 r2 v => Laws.EncodeShape.drawPixel r1 r2 v
  | .drawSprite r1 r2 v => Laws.EncodeShape.drawSprite r1 r2 v
  | .jgt r1 r2 v => Laws.EncodeShape.jgt r1 r2 v
  | .nop op => Laws.EncodeShape.nop op
  | .halt => Laws.EncodeShape.halt

theorem encode_length {i : Instr} (hi : i.wellFormed = true) : (encode i).length = opcodeLength i.opcode := by
  obtain ⟨-, hlen, -⟩ := encode_shape i hi
  exact hlen

theorem encode_length_le {i : Instr} (hi : i.wellFormed = true) : (encode i).length ≤ 9 := by
  obtain ⟨-, hlen, hmax⟩ := encode_shape i hi
  exact hlen.trans_le hmax

/-! ## Encode, then decode -/

/-- Settles O2, by the format of the instruction: each format reads back the operand bytes that the encoder writes, and NOP keeps
its opcode byte. -/
theorem decodeOfEncode : Obligations.DecodeOfEncode := by
  intro i rest hi
  cases i with
  | idle | ret | swapBuffers | halt => rfl
  | nop op => exact decodeOpcode_unrecognised (of_decide_eq_true hi) rest
  | mov r v | storeI r v | loadI r v | addI r v | subI r v => exact operandsF1_bytes _ r v rest
  | store r1 r2 | load r1 r2 | add r1 r2 | sub r1 r2 | mul r1 r2 | div r1 r2 => exact operandsF2_bytes _ r1 r2 rest
  | jmp v | printMem v | printRom v | call v => exact operandsF3_bytes _ v rest
  | jeq r1 r2 v | jne r1 r2 v | jgt r1 r2 v | drawPixel r1 r2 v | drawSprite r1 r2 v =>
    exact operandsF4_bytes _ r1 r2 v rest
  | storeStr src dst => exact operandsF5_bytes _ src dst rest

/-! ## Decode, then encode -/

theorem cons_eq_encode_append {i : Instr} {op : Byte} {bs rest : List Byte} (hop : op.toNat = i.opcode.toNat)
    (hbs : bs = i.operandBytes ++ rest) : op :: bs = encode i ++ rest := by
  rw [BitVec.eq_of_toNat_eq hop, hbs]
  rfl

/-- What an opcode byte and the bytes after it decode to is well formed, and its encoding is these bytes: the opcode map sends each
opcode to an instruction of that opcode, and each format consumes the operand bytes the encoder writes. -/
theorem decodeOpcode_ok {op : Byte} {bs rest : List Byte} {i : Instr} (h : decodeOpcode op bs = .instr i rest) :
    i.wellFormed = true ∧ op :: bs = encode i ++ rest := by
  unfold decodeOpcode at h
  split at h
  case h_1 hop | h_20 hop | h_21 hop | h_25 hop =>
    cases h
    exact ⟨rfl, cons_eq_encode_append hop rfl⟩
  case h_26 =>
    cases h
    have := op.isLt
    have hop : UnrecognisedOpcode op := by
      simp only [imp_false] at *
      omega
    exact ⟨decide_eq_true hop, rfl⟩
  case h_2 hop | h_3 hop | h_4 hop | h_8 hop | h_10 hop =>
    obtain ⟨r, v, rfl, rfl⟩ := operandsF1_ok h
    exact ⟨rfl, cons_eq_encode_append hop rfl⟩
  case h_5 hop | h_6 hop | h_7 hop | h_9 hop | h_11 hop | h_12 hop =>
    obtain ⟨r1, r2, rfl, rfl⟩ := operandsF2_ok h
    exact ⟨rfl, cons_eq_encode_append hop rfl⟩
  case h_13 hop | h_17 hop | h_18 hop | h_19 hop =>
    obtain ⟨v, rfl, rfl⟩ := operandsF3_ok h
    exact ⟨rfl, cons_eq_encode_append hop rfl⟩
  case h_14 hop | h_15 hop | h_22 hop | h_23 hop | h_24 hop =>
    obtain ⟨r1, r2, v, rfl, rfl⟩ := operandsF4_ok h
    exact ⟨rfl, cons_eq_encode_append hop rfl⟩
  case h_16 hop =>
    obtain ⟨src, dst, rfl, rfl⟩ := operandsF5_ok h
    exact ⟨rfl, cons_eq_encode_append hop rfl⟩

/-- Settles O3: bytes that decode begin with an opcode byte, and the rest is the inversion of the opcode map. -/
theorem encodeOfDecode : Obligations.EncodeOfDecode := by
  intro bs rest i h
  cases bs with
  | nil => cases h
  | cons op tail => exact decodeOpcode_ok h

/-! ## Every opcode byte -/

theorem eq_eight_bytes_append {bs : List Byte} (h : 8 ≤ bs.length) :
    bs = bs[0] :: bs[1] :: bs[2] :: bs[3] :: bs[4] :: bs[5] :: bs[6] :: bs[7] :: bs.drop 8 := by
  simp only [List.getElem_cons_drop, List.drop_zero]

/-- Eight bytes are enough operand bytes for every format (rule R91). -/
theorem decodeOpcode_of_eight_bytes (op : Byte) {bs : List Byte} (h : 8 ≤ bs.length) :
    ∃ i rest, decodeOpcode op bs = .instr i rest := by
  rw [eq_eight_bytes_append h]
  unfold decodeOpcode
  split <;> exact ⟨_, _, rfl⟩

theorem opcodeLength_mem (op : Byte) : opcodeLength op ∈ [1, 3, 5, 6, 7, 9] := by
  unfold opcodeLength
  split <;> decide

/-- Settles O4: the bytes decode, and what they decode to is encoded as the opcode byte and as many operand bytes as the opcode's
length leaves. -/
theorem everyOpcodeDecodes : Obligations.EveryOpcodeDecodes := by
  intro op tail htail
  refine ⟨?_, opcodeLength_mem op⟩
  obtain ⟨i, rest, hd⟩ := decodeOpcode_of_eight_bytes op htail
  obtain ⟨hwf, hbytes⟩ := decodeOpcode_ok hd
  obtain ⟨rfl, rfl⟩ : op = i.opcode ∧ tail = i.operandBytes ++ rest := List.cons.inj hbytes
  have hdrop : (i.operandBytes ++ rest).drop (opcodeLength i.opcode - 1) = rest :=
    List.drop_left' (by rw [← encode_length hwf]; rfl)
  exact ⟨i, by rw [hdrop]; exact hd, rfl, hwf⟩

/-! ## Words of the spec -/

/-- Settles O1, by decoding each word. -/
theorem specWordsDecode : Obligations.SpecWordsDecode := by
  unfold Obligations.SpecWordsDecode
  decide

end Sys2Proof

namespace Sys2Proof.Machine

/-! ## The step executes what stands at `pc` -/

/-- Settles O5: fetch answers the decoded instruction, and its execution has a next state, which gives `cont`. -/
theorem stepRunsDecodedInstruction : Obligations.StepRunsDecodedInstruction := by
  intro s i rest hrun hd
  have hf := s.fetch_of_decode hrun hd
  obtain ⟨t, he, -⟩ := instructionCompletesOrFaultsCleanly i s
  exact ⟨step_of_instr s hf, by rw [s.cont_of_instr hf he, he]⟩

/-- Settles O6: the encoding is the head of the fetch window, and decoding reads it back whatever follows it there. -/
theorem stepRunsEncodedInstruction : Obligations.StepRunsEncodedInstruction := by
  intro s i hi hrun hbytes
  obtain ⟨rest, hw⟩ := fetchWindow_of_bytes 9 s.pc (encode i) (encode_length_le hi) hbytes
  have hd : decode (fetchWindow s.rom 9 s.pc) = .instr i rest := by rw [hw]; exact decodeOfEncode i rest hi
  exact step_of_instr s (s.fetch_of_decode hrun hd)

/-! ## Truncated instructions -/

/-- An instruction that the window decodes to has the opcode byte at `pc` and all its bytes in the window. -/
theorem opcodeLength_le_fetchWindow_length {rom : List Byte} {a : Word} {op : Byte} {i : Instr} {rest : List Byte}
    (hop : rom[a.toNat]? = some op) (hd : decode (fetchWindow rom 9 a) = .instr i rest) :
    opcodeLength op ≤ (fetchWindow rom 9 a).length := by
  obtain ⟨hwf, hw⟩ := encodeOfDecode _ _ _ hd
  have hhead : op = i.opcode := by
    rw [fetchWindow_cons hop] at hw
    exact (List.cons.inj hw).1
  rw [hw, hhead, ← encode_length hwf, List.length_append]
  exact Nat.le_add_right _ _

/-- Settles O8, by the three ways a step can go: with an opcode below ROM_SIZE the core is not stopped, and with an operand byte
missing the window is too short to decode. -/
theorem truncatedInstructionRaisesRomFault : Obligations.TruncatedInstructionRaisesRomFault := by
  intro s hrun
  refine ⟨fun op k hop _ hk hmissing => ?_, fun hpc => step_of_stopped s (.inr hpc)⟩
  rcases step_cases s with ⟨hstop, -, -⟩ | ⟨-, -, -, hstep⟩ | ⟨i, rest, -, -, hd, -, -⟩
  · obtain ⟨hpc, -⟩ := List.getElem?_eq_some_iff.mp hop
    rcases hstop with hnot | hend
    · exact absurd hrun hnot
    · exact absurd hpc (Nat.not_lt_of_le hend)
  · exact hstep
  · have hshort := fetchWindow_length_of_missing 9 s.pc k hmissing
    have hlong := opcodeLength_le_fetchWindow_length hop hd
    omega

end Sys2Proof.Machine
end

section
/-! Fetch, the special opcodes and the answer of a step (rules R25, R120, R124, R126, R127): a whole instruction lies inside a ROM
that is not full, IDLE and the unrecognised opcodes execute as they stand, and a step answers false at a stop only. -/

namespace Sys2Proof.Machine

/-! ## The end of the ROM -/

/-- Below the full size the address ROM_SIZE is a missing byte, so the window ends with the ROM (rules R25, R122). -/
theorem fetchWindow_fits {rom : List Byte} (n : Nat) {a : Word} (hrom : rom.length < 4294967296) (ha : a.toNat ≤ rom.length) :
    a.toNat + (fetchWindow rom n a).length ≤ rom.length := by
  have hmissing : rom[(a.toNat + (rom.length - a.toNat)) % 4294967296]? = none := by
    rw [Nat.add_sub_cancel' ha, Nat.mod_eq_of_lt hrom]
    exact List.getElem?_eq_none (Nat.le_refl _)
  have := fetchWindow_length_of_missing n a _ hmissing
  omega

/-- An instruction consumes no more bytes than it was decoded from (rule R90). -/
theorem instr_length_le_of_decode {bs rest : List Byte} {i : Instr} (h : decode bs = .instr i rest) :
    i.length ≤ bs.length := by
  obtain ⟨hwf, rfl⟩ := encodeOfDecode _ _ _ h
  rw [List.length_append, encode_length hwf]
  exact Nat.le_add_right _ _

/-- Settles O9: the instruction lies inside the fetch window, and the window inside the ROM. -/
theorem fetchNeverWrapsBelowFullRom : Obligations.FetchNeverWrapsBelowFullRom := by
  intro s i hrom hfetch
  rcases step_cases s with ⟨-, hf, -⟩ | ⟨-, -, hf, -⟩ | ⟨j, rest, -, hpc, hd, hf, -⟩ <;> rw [hfetch] at hf <;> cases hf
  have hwindow : s.pc.toNat + (fetchWindow s.rom 9 s.pc).length ≤ s.rom.length := fetchWindow_fits 9 hrom hpc.le
  have hlength := instr_length_le_of_decode hd
  omega

/-! ## IDLE and the unrecognised opcodes -/

variable {s : State}

theorem exec_idle : exec .idle s = .next { s with steps := s.steps + 1 } := rfl

theorem exec_nop (op : Byte) : exec (.nop op) s = .next { s with pc := s.pc + 1, steps := s.steps + 1 } := rfl

/-- A running core at a byte that is a whole instruction executes it, and the answer tells whether it still runs (rule R120). -/
theorem step_of_opcode {op : Byte} {i : Instr} {t : State} (hrun : s.status = .run) (hop : s.rom[s.pc.toNat]? = some op)
    (hi : ∀ bs, decodeOpcode op bs = .instr i bs) (he : exec i s = .next t) :
    step s = .next t ∧ s.cont = decide (t.status = .run) := by
  have hf := s.fetch_of_opcode hrun hop hi
  exact ⟨(step_of_instr s hf).trans he, s.cont_of_instr hf he⟩

theorem step_of_idle (hrun : s.status = .run) (hop : s.rom[s.pc.toNat]? = some 0x00) :
    step s = .next { s with steps := s.steps + 1 } ∧ s.cont = true := by
  obtain ⟨hstep, hcont⟩ := step_of_opcode hrun hop (fun _ => rfl) exec_idle
  exact ⟨hstep, hcont.trans (decide_eq_true hrun)⟩

theorem step_of_nop {op : Byte} (hunrec : UnrecognisedOpcode op) (hrun : s.status = .run) (hop : s.rom[s.pc.toNat]? = some op) :
    step s = .next { s with pc := s.pc + 1, steps := s.steps + 1 } ∧ s.cont = true := by
  obtain ⟨hstep, hcont⟩ := step_of_opcode hrun hop (decodeOpcode_unrecognised hunrec) (exec_nop op)
  exact ⟨hstep, hcont.trans (decide_eq_true hrun)⟩

/-- A run goes on from where its first step leads. -/
theorem run_succ {t : State} (h : step s = .next t) (n : Nat) :
    Host.Core.run core (n + 1) s = Host.Core.run core n t := by
  have hcore : core.step s = .next t := h
  simp only [Host.Core.run, hcore]

/-- A core at IDLE stays there: the step counter is all that a run of `n` steps changes (rule R124). -/
theorem run_idle (n : Nat) (hrun : s.status = .run) (hop : s.rom[s.pc.toNat]? = some 0x00) :
    Host.Core.run core n s = .next { s with steps := s.steps + BitVec.ofNat 32 n } := by
  induction n generalizing s with
  | zero => simp [Host.Core.run]
  | succ n ih =>
    obtain ⟨hstep, -⟩ := step_of_idle hrun hop
    have hsteps : s.steps + 1 + BitVec.ofNat 32 n = s.steps + BitVec.ofNat 32 (n + 1) := by
      rw [Nat.add_comm n, BitVec.ofNat_add]
      exact BitVec.add_assoc s.steps 1 (BitVec.ofNat 32 n)
    rw [← hsteps]
    exact (run_succ hstep n).trans (ih hrun hop)

/-- Settles O11: IDLE leaves `status`, `pc` and the ROM as they are, so the next step finds it again. -/
theorem idleSpinsForEver : Obligations.IdleSpinsForEver := by
  refine ⟨rfl, fun _ => exec_idle, fun s hrun hop => ?_⟩
  obtain ⟨-, hcont⟩ := step_of_idle hrun hop
  exact ⟨hcont, fun n => run_idle n hrun hop⟩

/-- Settles O13: an unrecognised opcode byte is a whole instruction, the NOP that carries it. -/
theorem unrecognisedOpcodesAreNops : Obligations.UnrecognisedOpcodesAreNops := by
  intro op hlow hhigh
  exact ⟨rfl, fun s => ⟨exec_nop op, step_of_nop ⟨hlow, hhigh⟩⟩⟩

/-! ## The answer of a step -/

theorem Status.ne_run_iff (st : Status) : st ≠ .run ↔ st = .halted ∨ st = .faulted := by
  cases st <;> simp

/-- Settles O50, by the three ways a step can go: a stopped core and a truncated instruction answer false, and an executed instruction
answers whether the core still runs. -/
theorem contIsFalseExactlyAtAStop : Obligations.ContIsFalseExactlyAtAStop := by
  intro s t h
  rcases step_cases s with ⟨hstop, -, -⟩ | ⟨-, -, hf, hstep⟩ | ⟨i, -, hrun, hpc, -, hf, hstep⟩
  · simp [s.cont_of_stopped hstop, hstop]
  · rw [hstep] at h
    cases h
    simp [s.cont_of_truncated hf]
  · have hlive : ¬ s.Stopped := fun hstop => hstop.elim (fun hnot => hnot hrun) (Nat.not_le_of_lt hpc)
    rw [s.cont_of_instr hf (hstep.symm.trans h), decide_eq_false_iff_not, ← Status.ne_run_iff]
    simp [hlive]

end Sys2Proof.Machine
end

section
/-! Data movement (rules R140 to R144): MOV and the loads complete with one register written, the stores with four RAM bytes written,
and each of them faults at its first bad operand. -/

namespace Sys2Proof.Machine

variable {s : State} {α : Type}

/-! ## The operand checks of an instruction (rules R22, R211) -/

/-- A check or an access that fails ends the instruction: nothing is written but `status` and `fault_cause`. -/
theorem State.complete_bind_error {x : Except CoreFault α} {e : CoreFault} (h : x = .error e) (f : α → Except CoreFault State) :
    s.complete (x >>= f) = .next (afterFault s e) := by
  rw [h, bind_error]
  rfl

/-- After a register byte that passes its check the instruction goes on with the register. -/
theorem State.complete_regIndex {r : Byte} {d : Fin 32} (hd : r.toNat = d) (f : Fin 32 → Except CoreFault State) :
    s.complete (regIndex r >>= f) = s.complete (f d) := by
  rw [regIndex_ok hd, bind_ok]

/-- What follows a register byte that passes its check, whichever register it names, decides how the instruction ends. -/
theorem State.complete_regIndex_of_lt {r : Byte} (hr : r.toNat < 32) {f : Fin 32 → Except CoreFault State} {o : StepOutcome}
    (h : ∀ d, s.complete (f d) = o) : s.complete (regIndex r >>= f) = o :=
  (State.complete_regIndex (d := ⟨r.toNat, hr⟩) rfl f).trans (h _)

/-- Of two register bytes that are checked first, a bad one raises RegisterFault. -/
theorem State.complete_regIndex_pair_error {r1 r2 : Byte} (h : 32 ≤ r1.toNat ∨ 32 ≤ r2.toNat)
    (f : Fin 32 → Fin 32 → Except CoreFault State) :
    s.complete (regIndex r1 >>= fun a => regIndex r2 >>= f a) = .next (afterFault s .registerFault) := by
  rcases regIndex_pair_error h with h1 | ⟨d, h1, h2⟩
  · exact State.complete_bind_error h1 _
  · rw [h1, bind_ok]
    exact State.complete_bind_error h2 _

/-! ## Completed moves, loads and stores -/

/-- A completed MOV (rule R140). -/
theorem exec_mov_ok {r : Byte} {d : Fin 32} (imm : Word) (hd : r.toNat = d) :
    exec (.mov r imm) s = .next ((s.setReg d imm).fallThrough 6).countStep :=
  State.complete_regIndex hd _

/-- A completed LOAD_I, by the word that the access reads (rule R142). -/
theorem exec_loadI_ok {r : Byte} {d : Fin 32} {addr w : Word} (hd : r.toNat = d) (hread : s.memRead32 addr = .ok w) :
    exec (.loadI r addr) s = .next ((s.setReg d w).fallThrough 6).countStep := by
  simp only [exec, execLoadI, absoluteAddress, regIndex_ok hd, hread, bind_ok, pure_eq_ok, State.complete_ok]

/-- A completed STORE_I (rule R141). -/
theorem exec_storeI_ok {r : Byte} {v : Fin 32} {addr : Word} (hv : r.toNat = v) (hin : addr.toNat < 65533) :
    exec (.storeI r addr) s = .next ((s.setRamBytes addr.toNat (wordBytes (s.reg v))).fallThrough 6).countStep := by
  simp only [exec, execStoreI, absoluteAddress, regIndex_ok hv, s.memWrite32_ok hin, bind_ok, pure_eq_ok, State.complete_ok]

/-- The state after a load from `a` into register `d` by an instruction of `n` bytes (rule R67: big-endian assembly). -/
theorem load_frame (d : Fin 32) (a n : Nat) {t : State}
    (ht : t = ((s.setReg d (be32 (s.ramAt a) (s.ramAt (a + 1)) (s.ramAt (a + 2)) (s.ramAt (a + 3)))).fallThrough n).countStep) :
    (t.reg d).toNat = 16777216 * (s.ramAt a).toNat + 65536 * (s.ramAt (a + 1)).toNat + 256 * (s.ramAt (a + 2)).toNat
        + (s.ramAt (a + 3)).toNat ∧
      (∀ j, j ≠ d → t.reg j = s.reg j) ∧ t.pc = s.pc + BitVec.ofNat 32 n ∧ t.steps = s.steps + 1 ∧
      UnchangedBut [.regs, .pc, .steps] s t := by
  obtain ⟨hread, hrest⟩ := register_write_frame s d _ n ht
  exact ⟨by rw [hread, be32_toNat], hrest⟩

theorem byteOf_toNat_base256 (v : Word) (k : Nat) : (byteOf v k).toNat = v.toNat / 256 ^ (3 - k) % 256 := by
  rw [byteOf_toNat, Nat.pow_mul]

/-- The state after a store of `v` at `a` by an instruction of `n` bytes (rule R68: most significant byte first). -/
theorem store_frame (v : Word) (a n : Nat) {t : State} (ht : t = ((s.setRamBytes a (wordBytes v)).fallThrough n).countStep) :
    (∀ k, k < 4 → (t.ramAt (a + k)).toNat = v.toNat / 256 ^ (3 - k) % 256) ∧
      (∀ b, b < a ∨ a + 4 ≤ b → t.ramAt b = s.ramAt b) ∧ t.pc = s.pc + BitVec.ofNat 32 n ∧ t.steps = s.steps + 1 ∧
      UnchangedBut [.ram, .pc, .steps] s t := by
  obtain ⟨-, hrest⟩ := memory_write_frame s a (wordBytes v) n ht
  refine ⟨fun k hk => ?_, hrest⟩
  have hbyte : t.ramAt (a + k) = byteOf v k := ht ▸ s.ramAt_store32 a v k hk
  rw [hbyte, byteOf_toNat_base256]

/-! ## The obligations -/

/-- Settles O15: a load that passes its checks is a write of the assembled word to its register; LOAD reads its address register
before that write. -/
theorem loadsReadBigEndianRam : Obligations.LoadsReadBigEndianRam := by
  intro r r2 addr s
  refine ⟨rfl, rfl, fun d hd hin => ?_, fun hr hout => ?_, fun hr => ?_, fun d a hd ha hin => ?_, fun a hr ha hout => ?_, fun hr => ?_⟩
  · exact ⟨_, exec_loadI_ok hd (s.memRead32_ok hin), load_frame d addr.toNat 6 rfl⟩
  · exact State.complete_regIndex_of_lt hr fun _ => State.complete_bind_error (s.memRead32_error hout) _
  · exact State.complete_bind_error (regIndex_error hr) _
  · exact ⟨_, exec_load_ok hd ha (s.memRead32_ok hin), load_frame d (s.reg a).toNat 3 rfl⟩
  · exact State.complete_regIndex_of_lt hr fun _ =>
      (State.complete_regIndex ha _).trans (State.complete_bind_error (s.memRead32_error hout) _)
  · exact State.complete_regIndex_pair_error hr _

/-- Settles O16: a store that passes its checks writes the four bytes of its register's value and leaves the rest of the RAM alone. -/
theorem storesWriteBigEndianRam : Obligations.StoresWriteBigEndianRam := by
  intro r r2 addr s
  refine ⟨rfl, rfl, fun v hv hin => ?_, fun hr hout => ?_, fun hr => ?_, fun v a hv ha hin => ?_, fun a hr ha hout => ?_, fun hr => ?_⟩
  · exact ⟨_, exec_storeI_ok hv hin, store_frame (s.reg v) addr.toNat 6 rfl⟩
  · exact State.complete_regIndex_of_lt hr fun _ => State.complete_bind_error (s.memWrite32_error hout) _
  · exact State.complete_bind_error (regIndex_error hr) _
  · exact ⟨_, exec_store_ok hv ha hin, store_frame (s.reg v) (s.reg a).toNat 3 rfl⟩
  · exact State.complete_regIndex_of_lt hr fun _ =>
      (State.complete_regIndex ha _).trans (State.complete_bind_error (s.memWrite32_error hout) _)
  · exact State.complete_regIndex_pair_error hr _

/-- Settles O14: the register byte is the only check of MOV. -/
theorem movWritesImmediate : Obligations.MovWritesImmediate := by
  intro r imm s
  refine ⟨rfl, fun d hd => ?_, fun hr => ?_⟩
  · exact ⟨_, exec_mov_ok imm hd, register_write_frame s d imm 6 rfl⟩
  · exact State.complete_bind_error (regIndex_error hr) _

end Sys2Proof.Machine
end

section
/-! Arithmetic (rules R150 to R154, R156): a register or immediate operation that passes its register checks writes its result to the
first register, and a bad register byte is the only fault of the wrapping ones. -/

namespace Sys2Proof.Machine

variable {s : State}

/-! ## The two families -/

/-- A completed register-to-register operation whose result has the value `m`: both operands are read in `s`, before the write. -/
theorem State.aluReg_completes {op : Word → Word → Except CoreFault Word} {r1 r2 : Byte} {d a : Fin 32} {v : Word} {m : Nat}
    (hd : r1.toNat = d) (ha : r2.toNat = a) (hop : op (s.reg d) (s.reg a) = .ok v) (hm : v.toNat = m) :
    ∃ t, s.aluReg op r1 r2 = .next t ∧ (t.reg d).toNat = m ∧ (∀ j, j ≠ d → t.reg j = s.reg j) ∧ t.pc = s.pc + 3 ∧
      t.steps = s.steps + 1 ∧ UnchangedBut [.regs, .pc, .steps] s t := by
  have hcommit : s.aluReg op r1 r2 = .next ((s.setReg d v).fallThrough 3).countStep := by
    simp only [State.aluReg, regIndex_ok hd, regIndex_ok ha, hop, bind_ok, pure_eq_ok, State.complete_ok]
  obtain ⟨hread, hrest⟩ := register_write_frame s d v 3 rfl
  exact ⟨_, hcommit, by rw [hread, hm], hrest⟩

/-- A completed register-and-immediate operation whose result has the value `m`. -/
theorem State.aluImm_completes {op : Word → Word → Word} {r : Byte} {imm : Word} {d : Fin 32} {m : Nat}
    (hd : r.toNat = d) (hm : (op (s.reg d) imm).toNat = m) :
    ∃ t, s.aluImm op r imm = .next t ∧ (t.reg d).toNat = m ∧ (∀ j, j ≠ d → t.reg j = s.reg j) ∧ t.pc = s.pc + 6 ∧
      t.steps = s.steps + 1 ∧ UnchangedBut [.regs, .pc, .steps] s t := by
  have hcommit : s.aluImm op r imm = .next ((s.setReg d (op (s.reg d) imm)).fallThrough 6).countStep :=
    State.complete_regIndex hd _
  obtain ⟨hread, hrest⟩ := register_write_frame s d (op (s.reg d) imm) 6 rfl
  exact ⟨_, hcommit, by rw [hread, hm], hrest⟩

/-- The registers are checked before the operation, whatever it computes or raises. -/
theorem State.aluReg_registerFault (op : Word → Word → Except CoreFault Word) {r1 r2 : Byte}
    (h : 32 ≤ r1.toNat ∨ 32 ≤ r2.toNat) : s.aluReg op r1 r2 = .next (afterFault s .registerFault) :=
  State.complete_regIndex_pair_error h _

theorem State.aluImm_registerFault (op : Word → Word → Word) {r : Byte} (imm : Word) (h : 32 ≤ r.toNat) :
    s.aluImm op r imm = .next (afterFault s .registerFault) :=
  State.complete_bind_error (regIndex_error h) _

/-! ## The instructions of the families -/

theorem exec_add (r1 r2 : Byte) : exec (.add r1 r2) s = s.aluReg (fun a b => .ok (a + b)) r1 r2 := rfl

theorem exec_sub (r1 r2 : Byte) : exec (.sub r1 r2) s = s.aluReg (fun a b => .ok (a - b)) r1 r2 := rfl

theorem exec_mul (r1 r2 : Byte) : exec (.mul r1 r2) s = s.aluReg (fun a b => .ok (a * b)) r1 r2 := rfl

theorem exec_addI (r : Byte) (imm : Word) : exec (.addI r imm) s = s.aluImm (fun a b => a + b) r imm := rfl

theorem exec_subI (r : Byte) (imm : Word) : exec (.subI r imm) s = s.aluImm (fun a b => a - b) r imm := rfl

/-- A difference modulo 2^32 as natural numbers: 2^32 is added first, so that nothing is cut off at zero (rules R152, R153). -/
theorem word_sub_toNat (a b : Word) : (a - b).toNat = (a.toNat + 4294967296 - b.toNat) % 4294967296 := by
  have hb := b.isLt
  rw [BitVec.toNat_sub]
  omega

/-! ## The obligations -/

/-- Settles O18: each of the three operations is total on words, so only the register checks can fault. -/
theorem registerArithmeticWraps : Obligations.RegisterArithmeticWraps := by
  intro r1 r2 s
  rw [exec_add, exec_sub, exec_mul]
  refine ⟨rfl, rfl, rfl, fun d a hd ha => ⟨?add, ?sub, ?mul⟩, fun hr => ⟨?addFault, ?subFault, ?mulFault⟩⟩
  case add => exact State.aluReg_completes hd ha rfl (BitVec.toNat_add _ _)
  case sub => exact State.aluReg_completes hd ha rfl (word_sub_toNat _ _)
  case mul => exact State.aluReg_completes hd ha rfl (BitVec.toNat_mul _ _)
  case addFault | subFault | mulFault => exact State.aluReg_registerFault _ hr

/-- Settles O19: the immediate enters as the unsigned word it is, with no extension. -/
theorem immediateArithmeticWraps : Obligations.ImmediateArithmeticWraps := by
  intro r imm s
  rw [exec_addI, exec_subI]
  refine ⟨rfl, rfl, fun d hd => ⟨?add, ?sub⟩, fun hr => ⟨?addFault, ?subFault⟩⟩
  case add => exact State.aluImm_completes hd (BitVec.toNat_add _ _)
  case sub => exact State.aluImm_completes hd (word_sub_toNat _ _)
  case addFault | subFault => exact State.aluImm_registerFault _ imm hr

end Sys2Proof.Machine
end

section
/-! Control flow (rules R160 to R162, R164 to R167): jumps write `pc` as they find their target, CALL and RETURN are the push and the
pop of a return address, and nested calls return to where they started. -/

namespace Sys2Proof.Machine

variable {s : State}

/-! ## Jumps (rules R160 to R162) -/

theorem exec_jmp (addr : Word) : exec (.jmp addr) s = .next { s with pc := addr, steps := s.steps + 1 } := rfl

theorem exec_jeq (r1 r2 : Byte) (addr : Word) : exec (.jeq r1 r2 addr) s = s.jumpIf condEq r1 r2 addr := rfl

theorem exec_jne (r1 r2 : Byte) (addr : Word) : exec (.jne r1 r2 addr) s = s.jumpIf condNe r1 r2 addr := rfl

/-- A conditional jump whose register bytes pass their checks: its test alone chooses between the target and the fall-through. -/
theorem State.jumpIf_ok {cond : Word → Word → Bool} {r1 r2 : Byte} {a b : Fin 32} (addr : Word) (ha : r1.toNat = a)
    (hb : r2.toNat = b) : s.jumpIf cond r1 r2 addr =
      .next { s with pc := if cond (s.reg a) (s.reg b) then addr else s.pc + 7, steps := s.steps + 1 } := by
  have hcommit : s.jumpIf cond r1 r2 addr =
      s.complete (.ok (if cond (s.reg a) (s.reg b) then s.jumpTo addr else s.fallThrough 7)) :=
    (State.complete_regIndex ha _).trans (State.complete_regIndex hb _)
  rw [hcommit]
  cases cond (s.reg a) (s.reg b) <;> rfl

/-- The register bytes are checked before the test, so whether the jump would be taken plays no part (rules R22, R161). -/
theorem State.jumpIf_registerFault (cond : Word → Word → Bool) {r1 r2 : Byte} (addr : Word)
    (h : 32 ≤ r1.toNat ∨ 32 ≤ r2.toNat) : s.jumpIf cond r1 r2 addr = .next (afterFault s .registerFault) :=
  State.complete_regIndex_pair_error h _

theorem condEq_iff (a b : Word) : condEq a b = true ↔ a.toNat = b.toNat := by
  rw [condEq, beq_iff_eq, BitVec.toNat_inj]

theorem condNe_iff (a b : Word) : condNe a b = true ↔ ¬ a.toNat = b.toNat := by
  rw [condNe, bne_iff_ne, BitVec.toNat_inj]

/-- Settles O21: the target is written unchecked, and a `pc` at or beyond ROM_SIZE is a stopped core. -/
theorem jmpGoesToAnyTarget : Obligations.JmpGoesToAnyTarget := by
  intro addr s
  exact ⟨rfl, exec_jmp addr, fun hend => step_of_stopped _ (.inr hend)⟩

/-- Settles O22: JEQ and JNE are one conditional jump under opposite tests of the registers' values. -/
theorem jeqJneCompareRegisters : Obligations.JeqJneCompareRegisters := by
  intro r1 r2 addr s
  rw [exec_jeq, exec_jne]
  refine ⟨rfl, rfl, fun a b ha hb => ⟨?jeq, ?jne⟩, fun hr => ⟨?jeqFault, ?jneFault⟩⟩
  case jeq => simp only [State.jumpIf_ok addr ha hb, condEq_iff]
  case jne => simp only [State.jumpIf_ok addr ha hb, condNe_iff, ite_not]
  case jeqFault | jneFault => exact State.jumpIf_registerFault _ addr hr

/-! ## CALL and RETURN (rules R27, R28, R164, R165) -/

/-- A completed CALL: the return address is on top of the stack, and every other slot is as it was. -/
theorem exec_call_completes (addr : Word) (h : s.sp ≠ s.cfg.stackCap) :
    ∃ t, exec (.call addr) s = .next t ∧ t.pc = addr ∧ t.sp = s.sp + 1 ∧ t.stackAt s.sp = s.pc + 5 ∧
      (∀ k, k ≠ s.sp → t.stackAt k = s.stackAt k) ∧ t.steps = s.steps + 1 ∧ UnchangedBut [.stack, .sp, .pc, .steps] s t := by
  have hbody : (s.push (s.pc + 5) >>= fun t => .ok (t.jumpTo addr)) =
      .ok { s with stack := writeCell s.stack s.sp (s.pc + 5), sp := s.sp + 1, pc := addr } := by
    rw [s.push_ok h]
    rfl
  exact ⟨_, congrArg s.complete hbody, rfl, rfl, readCell_writeCell_same _ _ _, fun k hk => readCell_writeCell_other _ _ hk, rfl,
    WritesOnly.push _ addr _ hbody⟩

/-- A completed RETURN: only `pc`, `sp` and `steps` are written, so the popped slot keeps its value. -/
theorem exec_ret_ok (h : s.sp ≠ 0) :
    exec .ret s = .next { s with pc := s.stackAt (s.sp - 1), sp := s.sp - 1, steps := s.steps + 1 } := by
  have hcommit : exec .ret s = s.complete (s.pop >>= fun x => .ok (x.2.jumpTo x.1)) := rfl
  rw [hcommit, s.pop_ok h]
  rfl

/-- Settles O24: below capacity the push succeeds, and at capacity it is the fault that ends the CALL. -/
theorem callPushesReturnAddress : Obligations.CallPushesReturnAddress := by
  intro addr s
  exact ⟨rfl, exec_call_completes addr, fun hfull => State.complete_bind_error (s.push_error hfull) _⟩

/-- Settles O25: on a stack that is not empty the pop succeeds, and on an empty one it is the fault that ends the RETURN. -/
theorem returnPopsIntoCounter : Obligations.ReturnPopsIntoCounter := by
  intro s
  exact ⟨rfl, exec_ret_ok, fun hempty => State.complete_bind_error (s.pop_error hempty) _⟩

/-! ## Nested calls (rule R167) -/

theorem SamePart.trans {t u : State} {p : Part} (h : SamePart s t p) (h' : SamePart t u p) : SamePart s u p := by
  cases p with
  | regs | stack | ram | cache => exact fun i => (h' i).trans (h i)
  | surfaces => exact fun k x y => (h' k x y).trans (h k x y)
  | _ => exact Eq.trans h' h

/-- What calls that have all returned leave between their start `s` and their end `t`: the same depth of the stack, every live slot
as it was, and nothing else changed but dead slots, `pc` and `steps`. -/
structure Balanced (s t : State) : Prop where
  slots : ∀ k, k < s.sp → t.stackAt k = s.stackAt k
  frame : UnchangedBut [.stack, .pc, .steps] s t

theorem Balanced.refl (s : State) : Balanced s s := ⟨fun _ _ => rfl, fun p _ => .refl s p⟩

theorem Balanced.sp_eq {t : State} (h : Balanced s t) : t.sp = s.sp := h.frame .sp (by decide)

/-- The subroutine rule: a CALL, a body that leaves the stack balanced, and a RETURN are balanced together, and end at the
instruction after the CALL. The return address is a live slot of the body, so the body keeps it. -/
theorem call_body_return (addr : Word) {body : List Instr} (hsp : s.sp ≠ s.cfg.stackCap)
    (hbody : ∀ u, u.sp = s.sp + 1 → u.cfg = s.cfg → ∃ v, execAll body u = .next v ∧ Balanced u v) :
    ∃ t, execAll (.call addr :: (body ++ [.ret])) s = .next t ∧ t.pc = s.pc + 5 ∧ Balanced s t := by
  obtain ⟨u, hcall, -, husp, htop, hslots, -, hcallFrame⟩ := exec_call_completes addr hsp
  obtain ⟨v, hrun, hbal⟩ := hbody u husp (hcallFrame .cfg (by decide))
  have hvsp : v.sp = s.sp + 1 := hbal.sp_eq.trans husp
  have hret := exec_ret_ok (s := v) (by omega)
  rw [hvsp, Nat.add_sub_cancel] at hret
  have hrunAll : execAll (.call addr :: (body ++ [.ret])) s = execAll [.ret] v := by
    simp only [execAll, hcall]
    exact execAll_append u [.ret] hrun
  simp only [execAll, hret] at hrunAll
  refine ⟨_, hrunAll, ?counter, ?slots, ?frame⟩
  case counter => exact (hbal.slots s.sp (by omega)).trans htop
  case slots => exact fun k hk => (hbal.slots k (by omega)).trans (hslots k (by omega))
  case frame =>
    intro p hp
    cases p with
    | stack | pc | steps => simp at hp
    | sp => rfl
    | _ => exact ((hcallFrame _ (by decide)).trans (hbal.frame _ (by decide))).trans (.of_refl rfl)

/-- Nested CALLs of the targets, each made by the body of the one before, and as many RETURNs. -/
def nest (targets : List Word) : List Instr := targets.map Instr.call ++ List.replicate targets.length Instr.ret

/-- A nest is the outermost CALL and its RETURN around the rest of the nest. -/
theorem nest_cons (addr : Word) (targets : List Word) :
    nest (addr :: targets) = .call addr :: (nest targets ++ [.ret]) := by
  rw [nest, nest, List.length_cons, List.replicate_succ', List.map_cons, List.cons_append, List.append_assoc]

/-- A nest of calls that fits on the stack is balanced, an empty one included. -/
theorem nest_balanced (targets : List Word) (hcap : s.sp + targets.length ≤ s.cfg.stackCap) :
    ∃ t, execAll (nest targets) s = .next t ∧ Balanced s t := by
  induction targets generalizing s with
  | nil => exact ⟨s, rfl, .refl s⟩
  | cons addr targets ih =>
    rw [List.length_cons] at hcap
    rw [nest_cons]
    obtain ⟨t, hrun, -, hbal⟩ := call_body_return (s := s) addr (by omega)
      fun u husp hcfg => ih (s := u) (by rw [husp, hcfg]; omega)
    exact ⟨t, hrun, hbal⟩

/-- Settles O26: the outermost call and its return stand around a balanced nest. -/
theorem nestedCallsReturn : Obligations.NestedCallsReturn := by
  intro first targets s hcap
  obtain ⟨t, hrun, hpc, hbal⟩ := call_body_return (s := s) first (by omega)
    fun u husp hcfg => nest_balanced (s := u) targets (by rw [husp, hcfg]; omega)
  rw [← nest_cons] at hrun
  exact ⟨t, hrun, hpc, hbal.sp_eq, hbal.slots, hbal.frame⟩

end Sys2Proof.Machine
end

section
/-! Strings and the console (rules R170 to R173): each string instruction completes with the string that its scan answers, and STORE_STR
leaves in the RAM the string that it found in the ROM. -/

namespace Sys2Proof.Machine

variable {s : State} {bs : List Byte}

/-! ## Completed string instructions (rules R171 to R173) -/

/-- A completed STORE_STR, by the bytes that its checks answer (rule R171). -/
theorem exec_storeStr_ok {src dst : Word} (h : copyScan (s.rom.drop src.toNat) dst.toNat = .ok bs) :
    exec (.storeStr src dst) s = .next ((s.setRamBytes dst.toNat bs).fallThrough 9).countStep := by
  simp only [exec, execStoreStr, h, bind_ok, pure_eq_ok, State.complete_ok]

/-- A completed PRINT_MEM, by the string at its address (rule R172). -/
theorem exec_printMem_ok {addr : Word} (h : s.memString addr.toNat = .ok bs) :
    exec (.printMem addr) s = .next ((s.print bs).fallThrough 5).countStep := by
  simp only [exec, execPrintMem, h, bind_ok, pure_eq_ok, State.complete_ok]

/-- A completed PRINT_ROM, by the string at its address (rule R173). -/
theorem exec_printRom_ok {addr : Word} (h : romString s.rom addr.toNat = .ok bs) :
    exec (.printRom addr) s = .next ((s.print bs).fallThrough 5).countStep := by
  simp only [exec, execPrintRom, h, bind_ok, pure_eq_ok, State.complete_ok]

/-! ## A string in the ROM and its copy in the RAM -/

/-- Bytes of the ROM that are not zero, with a terminator after them, are a string at the head of what stands from `a` on. -/
theorem exists_string_of_terminated {rom : List Byte} {a n : Nat} (h : ∀ k, k < n → ∃ b, rom[a + k]? = some b ∧ b ≠ 0)
    (h0 : rom[a + n]? = some 0) :
    ∃ bs, bs.length = n ∧ NoZero bs ∧ rom.drop a = bs ++ 0 :: rom.drop (a + n + 1) := by
  obtain ⟨hend, hzero⟩ := List.getElem?_eq_some_iff.mp h0
  refine ⟨(rom.drop a).take n, ?length, ?noZero, ?split⟩
  case length =>
    rw [List.length_take, List.length_drop]
    omega
  case noZero =>
    intro b hb
    obtain ⟨k, hk, rfl⟩ := List.getElem_of_mem hb
    rw [List.length_take] at hk
    obtain ⟨c, hc, hne⟩ := h k (by omega)
    rw [List.getElem_take, List.getElem_drop, (List.getElem?_eq_some_iff.mp hc).2]
    exact hne
  case split =>
    rw [← hzero, List.getElem_cons_drop, ← List.drop_drop, List.take_append_drop]

/-- The scan of a ROM that holds a string and its terminator from `a` on (rule R170). -/
theorem romString_of_drop_eq {rom rest : List Byte} {a : Nat} (hz : NoZero bs) (hsrc : rom.drop a = bs ++ 0 :: rest) :
    romString rom a = .ok bs := by
  rw [romString, hsrc, stringBytes_of_terminated hz]

/-- STORE_STR of a string that fits completes, sends nothing, and leaves that string at the destination (rule R171). -/
theorem exec_storeStr_stores_string {src dst : Word} {rest : List Byte} (hz : NoZero bs)
    (hsrc : s.rom.drop src.toNat = bs ++ 0 :: rest) (hfit : dst.toNat + bs.length < 65536) :
    ∃ t, exec (.storeStr src dst) s = .next t ∧ t.memString dst.toNat = .ok bs ∧ t.console = s.console := by
  have hscan : copyScan (s.rom.drop src.toNat) dst.toNat = .ok (bs ++ [0]) := by rw [hsrc, copyScan_ok hz hfit]
  obtain ⟨hbytes, -, -, -, hframe⟩ := memory_write_frame s dst.toNat (bs ++ [0]) 9 rfl
  refine ⟨_, exec_storeStr_ok hscan, State.memString_ok _ (fun k hk => ⟨?byte, hz _ (List.getElem_mem hk)⟩) ?terminator hfit,
    hframe .console (by decide)⟩
  case byte => rw [hbytes k (by rw [List.length_append]; omega), List.getElem_append_left hk]
  case terminator => rw [hbytes bs.length (by simp), List.getElem_concat_length rfl]

/-- Settles O30: the ROM scan and the scan of the copy answer one string, and both prints append it to one console. -/
theorem storedStringPrintsLikeRomString : Obligations.StoredStringPrintsLikeRomString := by
  intro src dst n s hbytes hterm hfit
  obtain ⟨bs, rfl, hz, hsrc⟩ := exists_string_of_terminated hbytes hterm
  obtain ⟨t, hstore, hmem, hconsole⟩ := exec_storeStr_stores_string hz hsrc hfit
  refine ⟨t, _, _, hstore, exec_printMem_ok hmem, exec_printRom_ok (romString_of_drop_eq hz hsrc), ?_⟩
  simp only [State.countStep_console, State.fallThrough_console, State.print_console, hconsole]

end Sys2Proof.Machine
end

section
/-! Drawing (rules R180, R181, R184 to R186, R188): a swap writes the selector, DRAW_PIXEL plots one pixel of the back surface, a sprite
record decodes when it lies wholly inside the ROM, and only a miss reads it. -/

namespace Sys2Proof.Machine

variable {s : State}

/-! ## SWAP_BUFFERS (rules R31, R180) -/

theorem exec_swapBuffers :
    exec .swapBuffers s = .next { s with current := 1 - s.current, pc := s.pc + 1, steps := s.steps + 1 } := rfl

/-- Settles O31: the selector takes the other of its two values, which is the back surface. -/
theorem swapBuffersExchangesRoles : Obligations.SwapBuffersExchangesRoles :=
  ⟨rfl, fun s => ⟨exec_swapBuffers, back_ne_current s, sub_sub_cancel 1 s.current⟩⟩

/-! ## DRAW_PIXEL (rules R31, R181, R183) -/

/-- There are two surfaces, so the back one is the one that is not presented. -/
theorem eq_back_iff_ne_current {k : Fin 2} : k = s.back ↔ k ≠ s.current :=
  ⟨fun h => h ▸ back_ne_current s, eq_back_of_ne s⟩

/-- A completed DRAW_PIXEL. -/
theorem exec_drawPixel_ok {xr yr : Byte} {a b : Fin 32} (color : Word) (ha : xr.toNat = a) (hb : yr.toNat = b) :
    exec (.drawPixel xr yr color) s = .next ((s.plotBack (s.column a) (s.row b) color).fallThrough 7).countStep :=
  (State.complete_regIndex ha _).trans (State.complete_regIndex hb _)

/-- Settles O32: the coordinates are reduced into the surface, so the plot is the overwrite of one pixel of it. -/
theorem drawPixelWritesOneBackPixel : Obligations.DrawPixelWritesOneBackPixel := by
  intro xr yr color s
  refine ⟨rfl, fun ⟨_, ⟨hwidth, _⟩, _⟩ a b ha hb => ⟨_, exec_drawPixel_ok color ha hb, ?pixels, rfl, rfl, ?frame⟩, fun hr => ?fault⟩
  case pixels =>
    intro k px py hpx _
    have hcolumn : s.column a < s.cfg.fbWidth := Nat.mod_lt _ hwidth
    exact (s.pixel_plotBack color k hcolumn hpx).trans (if_congr (and_congr_left' eq_back_iff_ne_current) rfl rfl)
  case frame => exact WritesOnly.plotBack _ _ color 7 _ rfl
  case fault => exact State.complete_regIndex_pair_error hr _

/-! ## The sprite record (rules R184, R185) -/

/-- Settles O33: with the header in the ROM the record is its raster, which has the header's width times height pixels; the raster is
read whole or raises RomFault. -/
theorem spriteRecordLayout : Obligations.SpriteRecordLayout := by
  intro rom a
  refine ⟨decodeSprite_short_header, fun w1 w0 h1 h0 e1 e2 e3 e4 w h hw hh => ?_⟩
  rw [← be16_toNat] at hw hh
  rw [decodeSprite_of_header e1 e2 e3 e4, ← hw, ← hh]
  refine ⟨fun hshort => ?short, fun hfit => ?fits⟩
  case short =>
    obtain ⟨hheader, -⟩ := List.getElem?_eq_some_iff.mp e4
    rw [readRaster_error (by omega) hshort, bind_error]
  case fits =>
    obtain ⟨px, hread, hlength, hpixel⟩ := readRaster_ok hfit
    refine ⟨_, by rw [hread, bind_ok], hw.symm, hh.symm, hlength, fun i j hi hj => ?_⟩
    obtain ⟨r, g, b, al, hp, hr, hg, hb, hal⟩ := hpixel (j * w + i) (pixel_key_lt hi hj)
    exact ⟨r, g, b, al, _, hp, hr, hg, hb, hal, be32_toNat r g b al⟩

/-! ## When DRAW_SPRITE faults (rules R186, R188) -/

/-- An instruction other than HALT that was counted has completed, and so leaves `status` as it was (rules R34, R211). -/
theorem exec_counted_keeps_status {i : Instr} (hi : i ≠ .halt) {t : State} (h : exec i s = .next t)
    (hsteps : t.steps = s.steps + 1) : t.status = s.status := by
  rcases exec_ends s i hi with ⟨u, he, e⟩ | ⟨f, -, e⟩ <;> rw [h] at e <;> cases e
  · obtain ⟨-, -, -, hstatus, -⟩ := he.fixed
    exact hstatus
  · simp at hsteps

/-- A miss whose record does not decode ends the instruction before the blit. -/
theorem exec_drawSprite_romFault {xr yr : Byte} {addr : Word} (hx : xr.toNat < 32) (hy : yr.toNat < 32)
    (hmiss : s.cached addr = none) (hbad : decodeSprite s.rom addr.toNat = .error .romFault) :
    exec (.drawSprite xr yr addr) s = .next (afterFault s .romFault) :=
  State.complete_regIndex_of_lt hx fun _ => State.complete_regIndex_of_lt hy fun _ =>
    State.complete_bind_error (s.getSprite_error hmiss hbad) _

/-- A hit completes: it writes neither `status` nor the cache (rule R186). -/
theorem exec_drawSprite_hit {xr yr : Byte} {addr : Word} {img : Sprite} (hx : xr.toNat < 32) (hy : yr.toNat < 32)
    (hhit : s.cached addr = some img) :
    ∃ t, exec (.drawSprite xr yr addr) s = .next t ∧ t.steps = s.steps + 1 ∧ t.status = s.status ∧ t.scache = s.scache := by
  obtain ⟨t, hexec, hcache, hsteps⟩ := execDrawSprite_hit hx hy hhit
  exact ⟨t, hexec, hsteps, exec_counted_keeps_status (i := .drawSprite xr yr addr) (by simp) hexec hsteps, hcache⟩

/-- Settles O35: a miss goes through the decoder, and a hit completes whatever the ROM holds. -/
theorem drawSpriteFaultsOnlyOnAMiss : Obligations.DrawSpriteFaultsOnlyOnAMiss := by
  intro xr yr addr s
  refine ⟨rfl, fun hx hy => ⟨?miss, ?hit⟩, fun hr => ?fault⟩
  case miss => exact exec_drawSprite_romFault hx hy
  case hit => exact fun img hhit rom => exec_drawSprite_hit (s := { s with rom := rom }) hx hy hhit
  case fault => exact State.complete_regIndex_pair_error hr _

end Sys2Proof.Machine
end

section
/-! Exceptions of arithmetic (rules R155, R205): DIV ends as its quotient does, with a value below 2^32 or with ArithmeticFault. -/

namespace Sys2Proof.Machine

variable {s : State}

/-! ## The quotient (rule R155) -/

/-- A divisor other than zero has a quotient, and it fits in a word: it is no greater than the dividend. -/
theorem quotient_ok {a b : Word} (hb : b.toNat ≠ 0) : ∃ q, quotient a b = .ok q ∧ q.toNat = a.toNat / b.toNat := by
  have hne : b ≠ 0 := fun h => hb (congrArg BitVec.toNat h)
  have hfits : a.toNat / b.toNat < 2 ^ 32 := (Nat.div_le_self _ _).trans_lt a.isLt
  exact ⟨_, if_neg hne, (BitVec.toNat_ofNat _ _).trans (Nat.mod_eq_of_lt hfits)⟩

theorem quotient_error (a : Word) {b : Word} (hb : b.toNat = 0) : quotient a b = .error .arithmeticFault :=
  if_pos (BitVec.eq_of_toNat_eq hb)

/-! ## DIV (rules R155, R205) -/

theorem exec_div (r1 r2 : Byte) : exec (.div r1 r2) s = s.aluReg quotient r1 r2 := rfl

/-- After the register checks, a fault that the operation raises is the fault of the instruction. -/
theorem State.aluReg_opFault {op : Word → Word → Except CoreFault Word} {r1 r2 : Byte} {d a : Fin 32} {f : CoreFault}
    (hd : r1.toNat = d) (ha : r2.toNat = a) (hop : op (s.reg d) (s.reg a) = .error f) :
    s.aluReg op r1 r2 = .next (afterFault s f) :=
  ((State.complete_regIndex hd _).trans (State.complete_regIndex ha _)).trans (State.complete_bind_error hop _)

/-- Settles O20: once both registers are checked the divisor alone decides, and the quotient fits in the register. -/
theorem divWritesUnsignedQuotient : Obligations.DivWritesUnsignedQuotient := by
  intro r1 r2 s
  rw [exec_div]
  refine ⟨rfl, fun d a hd ha => ⟨fun hdivisor => ?quotient, fun hzero => ?arithmeticFault⟩, fun hr => ?registerFault⟩
  case quotient =>
    obtain ⟨q, hq, hvalue⟩ := quotient_ok hdivisor
    exact State.aluReg_completes hd ha hq hvalue
  case arithmeticFault => exact State.aluReg_opFault hd ha (quotient_error _ hzero)
  case registerFault => exact State.aluReg_registerFault _ hr

end Sys2Proof.Machine
end

section
/-! Stops and faults of the step (rules R34, R36, R120, R125, R210, R211, R252): every step has a next state, a stopped core stays as it
is, a fault is precise, the step counter counts the answers true, and the console only grows. -/

namespace Sys2Proof.Machine

variable {s : State}

/-! ## Every step has a next state -/

/-- Settles O51, by the three ways a step can go: a stop and RomFault are next states, and every instruction ends in one. -/
theorem everyStepHasANextState : Obligations.EveryStepHasANextState := by
  intro s
  rcases step_cases s with ⟨-, -, hstep⟩ | ⟨-, -, -, hstep⟩ | ⟨i, -, -, -, -, -, hstep⟩
  · exact ⟨s, hstep⟩
  · exact ⟨_, hstep⟩
  · obtain ⟨t, hexec, -⟩ := instructionCompletesOrFaultsCleanly i s
    exact ⟨t, hstep.trans hexec⟩

/-! ## A stopped core -/

theorem run_of_stopped (h : s.Stopped) (n : Nat) : Host.Core.run core n s = .next s := by
  induction n with
  | zero => rfl
  | succ n ih => exact (run_succ (step_of_stopped s h) n).trans ih

/-- Settles O7: the step of a stopped core answers false and the state as it is, so a run goes nowhere. -/
theorem stoppedCoreNeverChanges : Obligations.StoppedCoreNeverChanges :=
  fun s h => ⟨s.cont_of_stopped h, run_of_stopped h⟩

/-- Settles O12: the byte 0xFF is HALT whole, and a core that is HALTED has stopped. -/
theorem haltStopsTheCore : Obligations.HaltStopsTheCore := by
  refine ⟨rfl, exec_halt, fun s hrun hop => ?_⟩
  obtain ⟨hstep, hcont⟩ := step_of_opcode hrun hop (fun _ => rfl) (exec_halt s)
  have hstopped : State.Stopped { s.fallThrough 1 with status := .halted } := .inl (by simp)
  exact ⟨hcont, fun n => (run_succ hstep n).trans (run_of_stopped hstopped n)⟩

/-! ## A placed instruction -/

theorem exists_rest_of_decodeTableWord {nbits w : Nat} {i : Instr} (h : decodeTableWord nbits w = some i) :
    ∃ rest, decode (tableBytes nbits w) = .instr i rest := by
  unfold decodeTableWord at h
  split at h
  next j rest hd => exact ⟨rest, Option.some.inj h ▸ hd⟩
  next => cases h
  next => cases h

theorem tableBytes_length (nbits w : Nat) : (tableBytes nbits w).length = 9 := by
  rw [tableBytes, List.length_map, List.length_range]

/-- Bytes that decode begin with the encoding of what they decode to, so a core that finds them placed at `pc` executes it. -/
theorem step_of_placed {bs rest : List Byte} {i : Instr} (hl : bs.length < 4294967296) (hd : decode bs = .instr i rest) :
    step { s with rom := romPutBytes s.rom s.pc bs, status := .run } =
      exec i { s with rom := romPutBytes s.rom s.pc bs, status := .run } := by
  obtain ⟨hwf, rfl⟩ := encodeOfDecode _ _ _ hd
  refine stepRunsEncodedInstruction _ i hwf rfl fun k hk => ?_
  have hplaced : k < (encode i ++ rest).length := by
    rw [List.length_append]
    exact Nat.lt_add_right _ hk
  rw [romPutBytes_get s.rom s.pc _ hl k hplaced, List.getElem_append_left hk]

/-- Settles O10: the nine bytes of the number are placed, and they decode to the instruction. -/
theorem placedWordIsExecuted : Obligations.PlacedWordIsExecuted := by
  intro s nbits w i h
  obtain ⟨rest, hd⟩ := exists_rest_of_decodeTableWord h
  have hl : (tableBytes nbits w).length < 4294967296 := by
    rw [tableBytes_length]
    decide
  exact step_of_placed hl hd

/-! ## Precise faults -/

/-- Settles O40, by the four things a step can do: of a core that was running only the fault leaves it FAULTED. -/
theorem faultsArePrecise : Obligations.FaultsArePrecise := by
  intro s t hrun hstep hfaulted
  refine ⟨(contIsFalseExactlyAtAStop s t hstep).mpr (.inr (.inr hfaulted)), ?_⟩
  rcases step_effect s hstep with rfl | ⟨-, f, rfl⟩ | ⟨-, rfl⟩ | ⟨-, u, he, rfl⟩
  · simp [hrun] at hfaulted
  · exact ⟨f, rfl⟩
  · simp at hfaulted
  · obtain ⟨-, -, -, hstatus, -⟩ := he.fixed
    simp [hstatus, hrun] at hfaulted

/-! ## The step counter -/

/-- Settles O49: a stopped core and a truncated instruction answer false and do not count; an instruction that completes counts and
leaves the core running, HALT and a fault do neither. -/
theorem stepCounterCountsContinuingSteps : Obligations.StepCounterCountsContinuingSteps := by
  intro s t hstep
  rcases step_cases s with ⟨hstop, -, e⟩ | ⟨-, -, hf, e⟩ | ⟨i, -, hrun, -, -, hf, e⟩ <;> rw [e] at hstep
  · cases hstep
    simp [s.cont_of_stopped hstop]
  · cases hstep
    simp [s.cont_of_truncated hf]
  · rw [s.cont_of_instr hf hstep]
    obtain ⟨u, hexec, hends⟩ := instructionCompletesOrFaultsCleanly i s
    obtain rfl : t = u := Host.Outcome.next.inj (hstep.symm.trans hexec)
    rcases hends with ⟨hstatus, -, -, -, hsteps⟩ | ⟨f, -, rfl⟩
    · by_cases hi : i = .halt
      · simp [hstatus, hsteps, hi]
      · simp [hstatus, hsteps, hi, hrun]
    · simp [afterFault]

/-! ## The console -/

theorem Effect.appends_console {t : State} (he : Effect s t) : ∃ es, t.console = s.console ++ es := by
  cases he with
  | print bs pc => exact ⟨_, rfl⟩
  | memory => exact ⟨[], by simp⟩
  | draw a img u x y pc hg =>
    rw [s.getSprite_state hg]
    exact ⟨[], by simp⟩
  | _ => exact ⟨[], (List.append_nil _).symm⟩

/-- Settles O48, by the four things a step can do: only the PRINT instructions touch the console, and they append. -/
theorem consoleOnlyGrows : Obligations.ConsoleOnlyGrows := by
  intro s t hstep
  rcases step_effect s hstep with rfl | ⟨-, f, rfl⟩ | ⟨-, rfl⟩ | ⟨-, u, he, rfl⟩
  · exact ⟨[], (List.append_nil _).symm⟩
  · exact ⟨[], (List.append_nil _).symm⟩
  · exact ⟨[], (List.append_nil _).symm⟩
  · exact he.appends_console

theorem run_appends_console {n : Nat} {t : State} (h : Host.Core.run core n s = .next t) :
    ∃ es, t.console = s.console ++ es := by
  refine run_keeps s (P := fun u => ∃ es, u.console = s.console ++ es) (fun u v ⟨es, hu⟩ hstep => ?_) n
    ⟨[], (List.append_nil _).symm⟩ h
  obtain ⟨es', hv⟩ := consoleOnlyGrows u v hstep
  exact ⟨es ++ es', by rw [hv, hu, List.append_assoc]⟩

end Sys2Proof.Machine
end

section
/-! The rest of the instructions' rules (rules R22, R163, R171 to R173, R186 to R188): every register operand is checked, JGT compares
unsigned, the string instructions complete or fault as their scans do, and DRAW_SPRITE leaves its image on the back surface. -/

namespace Sys2Proof.Machine

variable {s : State}

/-! ## Register operands (rules R22, R203) -/

theorem bad_byte_of_mem_pair {r r1 r2 : Byte} (h : r ∈ [r1, r2]) (hr : 32 ≤ r.toNat) : 32 ≤ r1.toNat ∨ 32 ≤ r2.toNat :=
  (List.mem_pair.mp h).imp (fun e : r = r1 => e ▸ hr) (fun e : r = r2 => e ▸ hr)

/-- Settles O38, by the register operands of the instruction: one or two, and their checks come before anything else. -/
theorem badRegisterByteRaisesRegisterFault : Obligations.BadRegisterByteRaisesRegisterFault := by
  intro i r s h hr
  cases i with
  | mov | storeI | loadI | addI | subI =>
    obtain rfl := List.mem_singleton.mp h
    exact State.complete_bind_error (regIndex_error hr) _
  | store | load | add | sub | mul | div | jeq | jne | jgt | drawPixel | drawSprite =>
    exact State.complete_regIndex_pair_error (bad_byte_of_mem_pair h hr) _
  | idle | nop | halt | ret | swapBuffers | jmp | call | printMem | printRom | storeStr => cases h

/-! ## JGT (rule R163) -/

theorem exec_jgt (r1 r2 : Byte) (addr : Word) : exec (.jgt r1 r2 addr) s = s.jumpIf condGt r1 r2 addr := rfl

theorem condGt_iff (a b : Word) : condGt a b = true ↔ b.toNat < a.toNat := decide_eq_true_iff

/-- Settles O23: JGT is the conditional jump under the unsigned comparison. -/
theorem jgtComparesUnsigned : Obligations.JgtComparesUnsigned := by
  intro r1 r2 addr s
  rw [exec_jgt]
  refine ⟨rfl, fun a b ha hb => ?_, fun hr => State.jumpIf_registerFault _ addr hr⟩
  simp only [State.jumpIf_ok addr ha hb, condGt_iff]

/-! ## STORE_STR (rule R171) -/

/-- Bytes of the ROM that are not zero have no terminator among them. -/
theorem noZero_take_drop {rom : List Byte} {a n : Nat} (h : ∀ k, k < n → ∃ b, rom[a + k]? = some b ∧ b ≠ 0) :
    NoZero ((rom.drop a).take n) := by
  intro b hb
  obtain ⟨k, hk, rfl⟩ := List.getElem_of_mem hb
  rw [List.length_take] at hk
  obtain ⟨c, hc, hne⟩ := h k (by omega)
  rw [List.getElem_take, List.getElem_drop, (List.getElem?_eq_some_iff.mp hc).2]
  exact hne

/-- A scan of bytes that are not zero, each with a place in the RAM, ends at the end of the ROM, also where there is no byte and no
place at all: RomFault wins the tie. -/
theorem copyScan_romFault_of_fits {bs : List Byte} {d : Nat} (hz : NoZero bs) (h : ∀ k, k < bs.length → d + k < 65536) :
    copyScan bs d = .error .romFault := by
  cases bs with
  | nil => rfl
  | cons b bs =>
    have hlast := h bs.length (Nat.lt_succ_self _)
    exact copyScan_romFault hz (by rw [List.length_cons]; omega)

/-- STORE_STR of a terminated string that fits completes with the string and its terminator copied. -/
theorem exec_storeStr_copies {src dst : Word} {n : Nat} (h : ∀ k, k < n → ∃ b, s.rom[src.toNat + k]? = some b ∧ b ≠ 0)
    (hterm : s.rom[src.toNat + n]? = some 0) (hfit : dst.toNat + n < 65536) :
    ∃ t, exec (.storeStr src dst) s = .next t ∧
      (∀ k, k ≤ n → s.rom[src.toNat + k]? = some (t.ramAt (dst.toNat + k))) ∧
      (∀ a, a < dst.toNat ∨ dst.toNat + n < a → t.ramAt a = s.ramAt a) ∧
      t.pc = s.pc + 9 ∧ t.steps = s.steps + 1 ∧ UnchangedBut [.ram, .pc, .steps] s t := by
  obtain ⟨bs, rfl, hz, hsrc⟩ := exists_string_of_terminated h hterm
  have hscan : copyScan (s.rom.drop src.toNat) dst.toNat = .ok (bs ++ [0]) := by rw [hsrc, copyScan_ok hz hfit]
  obtain ⟨hbytes, houtside, hrest⟩ := memory_write_frame s dst.toNat (bs ++ [0]) 9 rfl
  have hlength : (bs ++ [(0 : Byte)]).length = bs.length + 1 := List.length_append
  refine ⟨_, exec_storeStr_ok hscan, fun k hk => ?copied, fun a ha => houtside a (by omega), hrest⟩
  case copied =>
    have hk' : k < (bs ++ [(0 : Byte)]).length := by omega
    rw [hbytes k hk', ← List.getElem?_drop, hsrc, List.append_cons, List.getElem?_append_left hk', List.getElem?_eq_getElem hk']

/-- Settles O27: before the byte `n` the scan finds no reason to end; at it there is a terminator, the end of the ROM, or the top of the
RAM. -/
theorem storeStrCopiesOrFaults : Obligations.StoreStrCopiesOrFaults := by
  intro src dst n s
  refine ⟨rfl, fun h => ⟨exec_storeStr_copies fun k hk => (h k hk).2, fun hend => ?romFault, fun hrom htop => ?memoryFault⟩⟩
  all_goals
    have hz : NoZero ((s.rom.drop src.toNat).take n) := noZero_take_drop fun k hk => (h k hk).2
  case romFault =>
    have hlength : (s.rom.drop src.toNat).length ≤ n := by
      rw [List.length_drop]
      omega
    rw [List.take_of_length_le hlength] at hz
    exact State.complete_bind_error (copyScan_romFault_of_fits hz fun k hk => (h k (by omega)).1) _
  case memoryFault =>
    have hn : n < (s.rom.drop src.toNat).length := by
      rw [List.length_drop]
      omega
    have hsplit : s.rom.drop src.toNat = (s.rom.drop src.toNat).take n ++
        (s.rom.drop src.toNat)[n] :: (s.rom.drop src.toNat).drop (n + 1) := by
      rw [List.getElem_cons_drop, List.take_append_drop]
    have hscan : copyScan (s.rom.drop src.toNat) dst.toNat = .error .memoryFault := by
      rw [hsplit]
      exact copyScan_memoryFault hz (by rw [List.length_take]; omega)
    exact State.complete_bind_error hscan _

/-! ## PRINT_MEM and PRINT_ROM (rules R36, R172, R173) -/

/-- The state after a completed PRINT of an instruction of `n` bytes. -/
theorem State.print_committed (bs : List Byte) (n : Nat) : ((s.print bs).fallThrough n).countStep =
    { s with console := s.console ++ bs.map .byte ++ [.flush], pc := s.pc + BitVec.ofNat 32 n, steps := s.steps + 1 } := by
  rw [List.append_assoc]
  rfl

/-- Settles O28: the scan of the RAM answers the string or MemoryFault, before anything is sent. -/
theorem printMemEmitsString : Obligations.PrintMemEmitsString := by
  intro addr s
  refine ⟨rfl, fun bs hbytes hterm hfit => ?_, fun hnone => State.complete_bind_error (s.memString_error hnone) _⟩
  rw [exec_printMem_ok (s.memString_ok hbytes hterm hfit), State.print_committed]
  rfl

/-- Settles O29: the scan of the ROM answers the string or RomFault, before anything is sent. -/
theorem printRomEmitsString : Obligations.PrintRomEmitsString := by
  intro addr s
  refine ⟨rfl, fun bs hbytes hterm => ?_, fun hnone => State.complete_bind_error (romString_error hnone) _⟩
  rw [exec_printRom_ok (romString_ok hbytes hterm), State.print_committed]
  rfl

/-! ## DRAW_SPRITE (rules R186 to R188) -/

/-- A completed DRAW_SPRITE, by the image that the cache access answers. -/
theorem exec_drawSprite_ok {xr yr : Byte} {a b : Fin 32} {addr : Word} {img : Sprite} {t : State} (ha : xr.toNat = a)
    (hb : yr.toNat = b) (hg : s.getSprite addr = .ok (img, t)) :
    exec (.drawSprite xr yr addr) s = .next ((t.blit (s.column a) (s.row b) img).fallThrough 7).countStep := by
  simp only [exec, execDrawSprite, regIndex_ok ha, regIndex_ok hb, hg, bind_ok, pure_eq_ok, State.complete_ok]

/-- A whole blit: a pixel of the back surface takes the value of the last raster pixel that lands on it (rule R187). -/
theorem State.back_blit_last {x y : Nat} (x0 y0 : Nat) (img : Sprite) (hx : x < s.cfg.fbWidth) {k : Nat} {c : Word}
    (hc : img.px[k]? = some c) (hkx : (x0 + k % img.w.toNat) % s.cfg.fbWidth = x)
    (hky : (y0 + k / img.w.toNat) % s.cfg.fbHeight = y)
    (h : ∀ l, k < l → l < img.px.length →
      (x0 + l % img.w.toNat) % s.cfg.fbWidth ≠ x ∨ (y0 + l / img.w.toNat) % s.cfg.fbHeight ≠ y) :
    (s.blit x0 y0 img).pixel s.back x y = c := by
  refine s.back_blitFrom_last x0 y0 _ 0 img.px hx hc ?_ ?_ ?_ <;> simpa only [Nat.zero_add]

/-- A whole blit: a pixel of the back surface on which nothing lands keeps its value (rule R187). -/
theorem State.back_blit_untouched {x y : Nat} (x0 y0 : Nat) (img : Sprite) (hx : x < s.cfg.fbWidth)
    (h : ∀ l, l < img.px.length →
      (x0 + l % img.w.toNat) % s.cfg.fbWidth ≠ x ∨ (y0 + l / img.w.toNat) % s.cfg.fbHeight ≠ y) :
    (s.blit x0 y0 img).pixel s.back x y = s.pixel s.back x y :=
  s.back_blitFrom_untouched x0 y0 _ 0 img.px hx (by simpa only [Nat.zero_add])

/-- Settles O34: the cache access answers the image in a state that differs in the cache at most, and the blit goes to the back surface
of that state. -/
theorem drawSpriteBlitsImage : Obligations.DrawSpriteBlitsImage := by
  intro xr yr addr img a b s _ ha hb himg
  obtain ⟨c, hg, haddr, hother⟩ := s.getSprite_of_image himg
  refine ⟨_, exec_drawSprite_ok ha hb hg, ?image, fun other hne => ?others, fun px py hpx _ => ⟨?front, ?drawn, ?kept⟩, ?pc, ?steps,
    WritesOnly.blit hg _ _ 7 _ rfl⟩
  case image => exact (State.cached_blit _ _ img addr).trans haddr
  case others => exact (State.cached_blit _ _ img other).trans (hother other hne)
  case front => exact State.front_blit (s := { s with scache := c }) _ _ img px py
  case drawn => exact fun k p => State.back_blit_last (s := { s with scache := c }) _ _ img hpx
  case kept => exact State.back_blit_untouched (s := { s with scache := c }) _ _ img hpx
  case pc => simp
  case steps => simp

end Sys2Proof.Machine
end

section
/-! Reset and the host's transactions (rules R39, R230, R238 to R245): what reset leaves, the load window, the Step transaction and the
reads of the host. -/

namespace Sys2Proof.Machine

/-! ## Reset -/

theorem State.resetWith_stopped (c : Config) : (State.resetWith c).Stopped := .inr (Nat.zero_le _)

/-- Settles O44: the maps of the reset state are empty and read as zero, its registers are zero, and the rest is written out. -/
theorem resetValues : Obligations.ResetValues := by
  refine ⟨⟨Config.chosen, rfl⟩, fun c => ⟨fun i => ?regs, rfl, fun _ => rfl, rfl, fun _ => rfl, fun k px py => ?pixels, rfl,
    fun _ => rfl, rfl, rfl, rfl, rfl⟩⟩
  case regs => simp [State.reg, State.resetWith]
  case pixels => simp [State.pixel, State.resetWith]

/-! ## The Step transaction (rule R241) -/

variable {p : Session}

theorem transact_step {t : State} (h : step p.core = .next t) :
    transact .step p = .next ({ p with core := t, loadOpen := false }, .cont p.core.cont) := by
  simp only [transact, portStep, h]

/-- Settles O55: the transaction leaves the take position alone and answers `cont` of the state before the step. -/
theorem stepTransactionAnswersCont : Obligations.StepTransactionAnswersCont :=
  fun _ _ h => ⟨_, transact_step h, rfl, rfl⟩

/-- Settles O53: the ROM is empty after Reset, so the core has stopped and its Step closes the load window and does nothing else. -/
theorem resetStartsANewRun : Obligations.ResetStartsANewRun := by
  intro p
  have hstopped := State.resetWith_stopped p.core.cfg
  refine ⟨rfl, rfl, (transact_step (step_of_stopped _ hstopped)).trans ?_⟩
  rw [State.cont_of_stopped _ hstopped]

/-! ## The load window (rule R240) -/

theorem transact_loadRom_open {bytes : List Byte} (hopen : p.loadOpen = true) (hlength : bytes.length ≤ 4294967296) :
    transact (.loadRom bytes) p = .next ({ p with core := { p.core with rom := bytes }, loadOpen := false }, .done) := by
  simp [transact, portLoadRom, hopen, hlength]

theorem transact_loadRom_tooLong {bytes : List Byte} (hopen : p.loadOpen = true) (hlength : 4294967296 < bytes.length) :
    transact (.loadRom bytes) p = .refused .romTooLong := by
  simp [transact, portLoadRom, hopen, hlength]

theorem transact_loadRom_closed (bytes : List Byte) (hclosed : p.loadOpen = false) :
    transact (.loadRom bytes) p = .refused .loadRomOutOfOrder := if_pos hclosed

theorem step_closes_window {q : Session} {r : Reply} (h : transact .step p = .next (q, r)) : q.loadOpen = false := by
  obtain ⟨t, hstep⟩ := everyStepHasANextState p.core
  rw [transact_step hstep] at h
  cases h
  rfl

/-- Only Reset opens the window: a Step closes it, LoadRom is refused while it is closed, and the other transactions leave it alone. -/
theorem closed_window_stays_closed {x : Transaction} {q : Session} {r : Reply} (hx : x ≠ .reset)
    (h : transact x p = .next (q, r)) (hclosed : p.loadOpen = false) : q.loadOpen = false := by
  cases x with
  | reset => exact absurd rfl hx
  | loadRom bytes =>
    rw [transact_loadRom_closed bytes hclosed] at h
    cases h
  | step => exact step_closes_window h
  | readPixel k px py =>
    simp only [transact, portReadPixel] at h
    split at h
    · cases h
      exact hclosed
    · cases h
  | presentIndex | consoleTake | status =>
    cases h
    exact hclosed

/-- Settles O54: an open window takes one ROM that is not too long, and what closes it leaves it closed until Reset. -/
theorem loadRomOncePerRun : Obligations.LoadRomOncePerRun := by
  intro p bytes
  exact ⟨fun hopen hlength => ⟨_, transact_loadRom_open hopen hlength, rfl, rfl, rfl⟩,
    fun hlength hopen => transact_loadRom_tooLong hopen hlength, fun _ _ h => step_closes_window h,
    fun _ _ _ hx h hclosed => closed_window_stays_closed hx h hclosed, transact_loadRom_closed bytes⟩

/-! ## ConsoleTake (rule R244) -/

theorem transact_consoleTake : transact .consoleTake p =
    .next ({ p with taken := p.core.console.length }, .events (p.core.console.drop p.taken)) := rfl

/-- Settles O56: a take counts the events there are, a run appends to them, and dropping the counted ones leaves the appended ones. -/
theorem consoleTakeHandsNewEvents : Obligations.ConsoleTakeHandsNewEvents := by
  intro p n t hrun
  obtain ⟨es, hes⟩ := run_appends_console hrun
  refine ⟨{ p with taken := p.core.console.length }, es, transact_consoleTake, rfl, ?again, hes, ?later⟩
  case again => rw [transact_consoleTake, List.drop_length]
  case later =>
    have hnew : t.console.drop p.core.console.length = es := by rw [hes, List.drop_left]
    rw [← hnew]
    exact ⟨_, transact_consoleTake⟩

/-! ## The reads of the host (rules R200, R242, R243, R245) -/

/-- The cause that a code stands for (rule R200). -/
def causeOfCode : Nat → Option CoreFault
  | 1 => some .romFault
  | 2 => some .memoryFault
  | 3 => some .registerFault
  | 4 => some .stackFault
  | 5 => some .arithmeticFault
  | _ => none

theorem causeOfCode_faultCode : Function.LeftInverse causeOfCode faultCode := by
  intro cause
  cases cause with
  | none => rfl
  | some f => cases f <;> rfl

/-- A code tells one cause: it is the code of `cause` exactly for `cause`. -/
theorem faultCode_eq_iff {c : Option CoreFault} (cause : Option CoreFault) : faultCode c = faultCode cause ↔ c = cause :=
  causeOfCode_faultCode.injective.eq_iff

theorem transact_readPixel {k : Fin 2} {px py : Nat} (hx : px < p.core.cfg.fbWidth) (hy : py < p.core.cfg.fbHeight) :
    transact (.readPixel k px py) p = .next (p, .pixel (p.core.pixel k px py)) := if_pos ⟨hx, hy⟩

/-- Settles O57: the code that Status answers is `faultCode` of the cause, and each code stands for one cause. -/
theorem hostReadsChangeNothing : Obligations.HostReadsChangeNothing := by
  intro p
  exact ⟨rfl, fun _ _ _ hx hy => transact_readPixel hx hy, faultCode p.core.faultCause, rfl, faultCode_eq_iff none,
    (faultCode_eq_iff (some .romFault)).symm, (faultCode_eq_iff (some .memoryFault)).symm,
    (faultCode_eq_iff (some .registerFault)).symm, (faultCode_eq_iff (some .stackFault)).symm,
    (faultCode_eq_iff (some .arithmeticFault)).symm⟩

end Sys2Proof.Machine
end
